-- ==== Sys2Proof/Word.lean ====
section
/-! DEFINITION. The two bit-vector types of the machine: the byte (00_scope.md R6 `XLEN`, R7) and the 9-bit
program counter word (R6 `PC_WIDTH`, 10_state.md R25). -/

namespace Sys2Proof

/-- A byte: a register, a memory cell, an operand, an immediate, an opcode (00_scope.md R6, R7). -/
abbrev Byte := BitVec 8

/-- The type of the program counter: 9 bits, so that 256, one past the last byte of memory, is a value of its own
(10_state.md R25). -/
abbrev PcWord := BitVec 9

end Sys2Proof
end

