-- ==== Sys2Proof/Config.lean ====
section
/-! DEFINITION. The parameters of the machine (00_scope.md R6) that are not opcode bytes. The opcode table `OPC` of
R85 stands in Decode.lean as `opcodeByte`. The spec leaves no value of the machine free (93_implementation_defined.md,
end of part 1), so there is no free value here. -/

namespace Sys2Proof.Config

/-- `MEM_SIZE`: the number of memory cells (00_scope.md R6). -/
abbrev memSize : Nat := 256

/-- `NREG`: the number of general registers (00_scope.md R6). -/
abbrev nreg : Nat := 8

/-- `SP_INIT`: the reset value of the stack pointer and of register 7 (00_scope.md R6). -/
def spInit : Byte := 0xF4#8

/-- `PC_INIT`: the reset value of the program counter (00_scope.md R6). -/
def pcInit : PcWord := 0#9

/-- `EXIT_OK`: the host's exit code on a normal halt (00_scope.md R6, 45_host_interface.md R180). -/
def exitOk : Nat := 0

/-- The host's exit codes that the spec leaves OPEN (45_host_interface.md R180, 92_eei_decisions.md D14): any four
numbers that are not zero and pairwise distinct. Whoever uses them takes them as an argument. -/
structure ExitCodes where
  usage : Nat
  fileNotFound : Nat
  runtime : Nat
  load : Nat
  nonzero : ∀ c ∈ [usage, fileNotFound, runtime, load], c ≠ 0
  distinct : [usage, fileNotFound, runtime, load].Nodup
  deriving Repr

/-- The loader's leniency, which the spec leaves unstated (45_host_interface.md R171, 91_not_in_source.md N16; log entry
10). It is any choice of these three; whoever reads a text takes it as an argument, and no statement rests on one choice. -/
structure TextLeniency where
  /-- Whether a literal with this white space before it and this white space after it is read. -/
  surrounds : List Char → List Char → Bool
  /-- Whether a literal of this many digits, not eight, with a value in 0..255 is read. -/
  digits : Nat → Bool
  /-- Whether this white-space character ends a line, beside the line feed, which does. -/
  endsLine : Char → Bool

end Sys2Proof.Config
end

