-- ==== Sys2Proof/Machine/State.lean ====
section
/-! DEFINITION. The state of the core as plain data: exactly the eight pieces of 10_state.md R20, and their values
after reset (R39). The core has no hidden state (R36), so nothing else stands here. -/

namespace Sys2Proof.Machine

/-- Memory as a list of (address, byte) pairs in one canonical form (`Memory.wf`). An address that is not listed reads
as `Memory.unlisted`. -/
abbrev Memory := List Host.Cell

/-- What an unlisted cell holds: memory is zero-initialized (20_memory.md R50, 10_state.md R39). -/
def Memory.unlisted : Byte := 0#8

/-- The canonical form: addresses inside memory (20_memory.md R50) and strictly rising, and no entry that equals what
an unlisted cell holds. -/
def Memory.wf : Memory → Bool
  | [] => true
  | c :: m =>
    decide (c.1 < Config.memSize) && (c.2 != Memory.unlisted) && m.all (fun d => decide (c.1 < d.1)) && Memory.wf m

/-- The three condition flags, three independent booleans with no packed form (10_state.md R30, R31). -/
structure Flags where
  /-- `fl.E`, Equal. -/
  equal : Bool
  /-- `fl.L`, Less-Than. -/
  lessThan : Bool
  /-- `fl.G`, Greater-Than. -/
  greaterThan : Bool
  deriving DecidableEq, Repr

/-- The run state (10_state.md R33). -/
inductive RunState where
  /-- The engine will take another step. -/
  | running
  /-- A HLT has executed. -/
  | halted
  /-- A fault was raised. -/
  | faulted
  deriving DecidableEq, Repr

/-- The four causes of a fault (60_exceptions.md R190, R192). -/
inductive Cause where
  /-- A memory address outside 0..255, `sp` about to leave 0..255, or a return address above 255. -/
  | outOfBounds
  /-- A register-index operand byte of 8 or more. -/
  | invalidRegister
  /-- An opcode byte that is in no row of the opcode table. -/
  | unknownInstruction
  /-- The ALU asked for an operation it does not have: no step produces it (42_alu.md R135). -/
  | unsupportedOperation
  deriving DecidableEq, Repr

/-- The fault record (60_exceptions.md R191): the cause, its integer information, and the address of the instruction
whose step raised the fault. -/
structure FaultRecord where
  cause : Cause
  info : Int
  addr : PcWord
  deriving DecidableEq, Repr

/-- The complete state of the core (10_state.md R20). -/
structure State where
  /-- `M[0..255]` (20_memory.md R50). -/
  mem : Memory
  /-- `x[0..7]` (10_state.md R21). -/
  regs : Vector Byte Config.nreg
  /-- `fl.E`, `fl.L`, `fl.G` (10_state.md R30). -/
  flags : Flags
  /-- `pc` (10_state.md R25). -/
  pc : PcWord
  /-- `sp`, a piece of state of its own, not register 7 (10_state.md R28, 90_conflicts.md C1). -/
  sp : Byte
  /-- `run` (10_state.md R33). -/
  run : RunState
  /-- `fault` (60_exceptions.md R191): none until a fault is taken. -/
  fault : Option FaultRecord
  /-- `out`, oldest value first (10_state.md R35). -/
  out : List Byte
  deriving DecidableEq, Repr

/-- The reasons for which a step could stop outside the state: there is none, so the type has no constructor. A fault
of the core is not one of them: the spec gives its entry (60_exceptions.md R196), so it is a next state with
`run = .faulted` and the record latched (log entry 4). Safe: nothing stops that the spec lets go on. -/
inductive Fault where
  deriving DecidableEq, Repr

/-- The reasons for which an instruction could have no meaning. -/
inductive Refusal where
  /-- Raised only by an arm of `exec` whose instruction has no meaning yet; no arm is left so. Safe: it stops. -/
  | notModelled (mnemonic : String)
  deriving DecidableEq, Repr

/-- What a meaning and a step answer. -/
abbrev Answer := Host.Outcome State Fault Refusal

/-- The state after reset (10_state.md R39, 70_reset_and_hazards.md R230). -/
def State.reset : State where
  mem := []
  regs := #v[0#8, 0#8, 0#8, 0#8, 0#8, 0#8, 0#8, Config.spInit]
  flags := { equal := false, lessThan := false, greaterThan := false }
  pc := Config.pcInit
  sp := Config.spInit
  run := .running
  fault := none
  out := []

end Sys2Proof.Machine
end

