-- ==== Sys2Proof/Machine/Ops.lean ====
section
/-! DEFINITION. The named operations over the state: memory and its two primitives (00_scope.md R9), the register
file, `pc`, `sp`, `out`, the stack, and taking a fault (60_exceptions.md R196). There is no return from a fault: no
handler runs and no instruction restores anything (60_exceptions.md R200); only reset leaves a faulted state
(Machine/Launch.lean). -/

namespace Sys2Proof.Machine

/-! ### Raising a fault -/

/-- What `raise Cause(info)` names (00_scope.md R10). -/
structure Raise where
  cause : Cause
  info : Int
  deriving DecidableEq, Repr

/-- `OutOfBounds(a)` with the offending integer address (60_exceptions.md R192). -/
def raiseOutOfBounds (a : Int) : Raise := { cause := .outOfBounds, info := a }

/-- `InvalidRegister(o)` with the offending operand byte (60_exceptions.md R192). -/
def raiseInvalidRegister (o : Byte) : Raise := { cause := .invalidRegister, info := (o.toNat : Int) }

/-- `UnknownInstruction(b)` with the offending opcode byte (60_exceptions.md R192). -/
def raiseUnknownInstruction (b : Byte) : Raise := { cause := .unknownInstruction, info := (b.toNat : Int) }

/-- Fault entry (60_exceptions.md R196): `run` and the fault record change, with the address of the instruction whose
step raised the fault, and nothing else does (R195). -/
def takeFault (r : Raise) (s : State) : State :=
  { s with run := .faulted, fault := some { cause := r.cause, info := r.info, addr := s.pc } }

/-- A step that raises: the fault is taken in the state at the start of the step (60_exceptions.md R195). -/
def raise (s : State) (r : Raise) : Answer := .next (takeFault r s)

/-- Goes on with the value of a check or an access made in the state `s`, or raises what it raises; a raise ends the
instruction at once (00_scope.md R10). -/
def attempt {α : Type} (s : State) (x : Except Raise α) (k : α → Answer) : Answer :=
  match x with
  | .ok v => k v
  | .error r => raise s r

/-! ### Memory -/

/-- The byte in a cell. -/
def Memory.read : Memory → Nat → Byte
  | [], _ => Memory.unlisted
  | c :: m, a => if c.1 = a then c.2 else Memory.read m a

/-- The cell `(a, v)` in front of `m`, unless the value is what an unlisted cell holds. -/
def Memory.listed (a : Nat) (v : Byte) (m : Memory) : Memory :=
  if v = Memory.unlisted then m else (a, v) :: m

/-- Memory with the byte `v` in cell `a`, in canonical form. -/
def Memory.write : Memory → Nat → Byte → Memory
  | [], a, v => Memory.listed a v []
  | c :: m, a, v =>
    if a < c.1 then Memory.listed a v (c :: m)
    else if a = c.1 then Memory.listed a v m
    else c :: Memory.write m a v

/-- `M[a]`: the content of a cell, as a statement about state uses it (00_scope.md R8). -/
def byteAt (s : State) (a : Nat) : Byte := Memory.read s.mem a

/-- An integer address is inside memory (20_memory.md R51). -/
def inMemory (a : Int) : Bool := decide (0 ≤ a) && decide (a < (Config.memSize : Int))

/-- `MemRead(a, 1)` (00_scope.md R9). -/
def memRead (s : State) (a : Int) : Except Raise Byte :=
  if inMemory a then .ok (byteAt s a.toNat) else .error (raiseOutOfBounds a)

/-- `MemWrite(a, 1, v)` (00_scope.md R9). -/
def memWrite (s : State) (a : Int) (v : Byte) : Except Raise State :=
  if inMemory a then .ok { s with mem := Memory.write s.mem a.toNat v } else .error (raiseOutOfBounds a)

/-- Bytes placed in memory from address `a` upward; a byte past the end of memory is not placed. -/
def placeBytes (m : Memory) (a : Nat) : List Byte → Memory
  | [] => m
  | b :: bs => placeBytes (if a < Config.memSize then Memory.write m a b else m) (a + 1) bs

/-! ### Registers, `pc`, `sp`, `out`, `run` -/

/-- A valid register index. -/
abbrev RegIx := Fin Config.nreg

/-- `x[i]`; no register is hardwired (10_state.md R22). -/
def getReg (s : State) (i : RegIx) : Byte := s.regs[i]

/-- `x[i] <- v`; it moves neither `sp` nor another register, register 7 included (10_state.md R22). -/
def setReg (s : State) (i : RegIx) (v : Byte) : State := { s with regs := s.regs.set i.val v i.isLt }

/-- `pc <- t`. -/
def setPc (s : State) (t : PcWord) : State := { s with pc := t }

/-- A byte as a target address, zero-extended to 9 bits (10_state.md R27). -/
def targetOf (b : Byte) : PcWord := b.setWidth 9

/-- The default advance `pc <- a + len`, not reduced modulo 256 (40_engine_cycle.md R109). -/
def advance (s : State) (len : Nat) : State := setPc s (s.pc + BitVec.ofNat 9 len)

/-- `sp <- v`. -/
def setSp (s : State) (v : Byte) : State := { s with sp := v }

/-- `out <- out ++ [v]` (45_host_interface.md R175). -/
def emit (s : State) (v : Byte) : State := { s with out := s.out ++ [v] }

/-- `run <- HALTED` (41_data_output_halt.md R122). -/
def halt (s : State) : State := { s with run := .halted }

/-! ### The stack -/

/-- A push needs `sp` to be above 0 (10_state.md R29). -/
def pushRoom (s : State) : Except Raise Unit :=
  if s.sp = 0#8 then .error (raiseOutOfBounds (-1)) else .ok ()

/-- A pop needs `sp` to be below 255 (10_state.md R29). -/
def popRoom (s : State) : Except Raise Unit :=
  if s.sp = 255#8 then .error (raiseOutOfBounds 256) else .ok ()

/-- The address a push stores to: `sp - 1` as an integer (43_stack.md R140). -/
def pushAddr (s : State) : Int := (s.sp.toNat : Int) - 1

/-- `MemWrite(sp - 1, 1, v); sp <- sp - 1` (43_stack.md R140). -/
def pushByte (s : State) (v : Byte) : Except Raise State :=
  match memWrite s (pushAddr s) v with
  | .error r => .error r
  | .ok t => .ok (setSp t (s.sp - 1#8))

/-- `MemRead(sp, 1)` (43_stack.md R141). -/
def topByte (s : State) : Except Raise Byte := memRead s (s.sp.toNat : Int)

/-- `sp <- sp + 1` (43_stack.md R141). -/
def dropTop (s : State) : State := setSp s (s.sp + 1#8)

/-- CALL's return address `a + 2`, which must be a byte (44_control_flow.md R150). -/
def returnAddress (s : State) : Except Raise Byte :=
  if 255 < s.pc.toNat + 2 then .error (raiseOutOfBounds ((s.pc.toNat : Int) + 2))
  else .ok (BitVec.ofNat 8 (s.pc.toNat + 2))

end Sys2Proof.Machine
end

