-- ==== Sys2Proof/Machine/Flags.lean ====
section
/-! DEFINITION. The condition flags: the one computation that makes them, COMPARE (42_alu.md R133), and the one
condition that reads them, Equal (44_control_flow.md R153, R154). -/

namespace Sys2Proof.Machine

/-- ALU COMPARE of the unsigned values of two bytes (42_alu.md R133). -/
def compareFlags (a b : Byte) : Flags where
  equal := decide (a.toNat = b.toNat)
  lessThan := decide (a.toNat < b.toNat)
  greaterThan := decide (b.toNat < a.toNat)

/-- Writes all three flags (42_alu.md R133). -/
def setFlags (s : State) (f : Flags) : State := { s with flags := f }

/-- The condition of JEQ: the Equal flag, and no other (44_control_flow.md R153). -/
def equalSet (s : State) : Bool := s.flags.equal

end Sys2Proof.Machine
end

