-- ==== Sys2Proof/Machine/Operands.lean ====
section
/-! DEFINITION. The operand forms (30_encoding.md R83): a register-index operand is a whole byte, checked before the
instruction has any effect (40_engine_cycle.md R105); the immediate of LDI is its byte as it is and needs no function. -/

namespace Sys2Proof.Machine

/-- The register an operand byte names, or `InvalidRegister` with that byte (40_engine_cycle.md R105). -/
def regIndex (o : Byte) : Except Raise RegIx :=
  if h : o.toNat < Config.nreg then .ok ⟨o.toNat, h⟩ else .error (raiseInvalidRegister o)

/-- Format `R` and the first operand of `RI`: checks `o1`, then goes on with its register. -/
def withReg (s : State) (o1 : Byte) (k : RegIx → Answer) : Answer := attempt s (regIndex o1) k

/-- Format `RR`: checks `o1`, then `o2`, then goes on with both registers (40_engine_cycle.md R105). -/
def withRegs (s : State) (o1 o2 : Byte) (k : RegIx → RegIx → Answer) : Answer :=
  withReg s o1 fun a => withReg s o2 fun b => k a b

end Sys2Proof.Machine
end

