-- ==== Sys2Proof/Machine/Alu.lean ====
section
/-! DEFINITION. The ALU and its instructions ADD, MUL and CMP (42_alu.md). The operation select is a closed type of
three (R135), so no operation is unsupported. -/

namespace Sys2Proof.Machine

/-- The three operations of the ALU (42_alu.md R135). -/
inductive AluOp where
  | add
  | multiply
  | compare
  deriving DecidableEq, Repr

/-- ALU ADD: the exact sum reduced modulo 256 (42_alu.md R130, R132). -/
def aluAdd (a b : Byte) : Byte := BitVec.ofNat 8 ((a.toNat + b.toNat) % 256)

/-- ALU MULTIPLY: the exact product reduced modulo 256 (42_alu.md R131, R132). -/
def aluMultiply (a b : Byte) : Byte := BitVec.ofNat 8 (a.toNat * b.toNat % 256)

/-- What an ALU operation on registers `a` and `b` does to the state: ADD and MULTIPLY write register `a` and no flag,
COMPARE writes the flags and no register (42_alu.md R130, R131, R133). -/
def aluApply (op : AluOp) (s : State) (a b : RegIx) : State :=
  match op with
  | .add => setReg s a (aluAdd (getReg s a) (getReg s b))
  | .multiply => setReg s a (aluMultiply (getReg s a) (getReg s b))
  | .compare => setFlags s (compareFlags (getReg s a) (getReg s b))

/-- An instruction of format `RR` that invokes the ALU, then `pc <- a + 3`. -/
def execAlu (op : AluOp) (o1 o2 : Byte) (s : State) : Answer :=
  withRegs s o1 o2 fun a b => .next (advance (aluApply op s a b) 3)

/-- ADD: `x[o1] <- (x[o1] + x[o2]) mod 256; pc <- a + 3` (42_alu.md R137). -/
def execAdd (o1 o2 : Byte) (s : State) : Answer := execAlu .add o1 o2 s

/-- MUL: `x[o1] <- (x[o1] * x[o2]) mod 256; pc <- a + 3` (42_alu.md R138). -/
def execMul (o1 o2 : Byte) (s : State) : Answer := execAlu .multiply o1 o2 s

/-- CMP: the three flags from `x[o1]` and `x[o2]`; `pc <- a + 3` (42_alu.md R139). -/
def execCmp (o1 o2 : Byte) (s : State) : Answer := execAlu .compare o1 o2 s

end Sys2Proof.Machine
end

