-- ==== Sys2Proof/Machine/ControlFlow.lean ====
section
/-! DEFINITION. CALL, RET, JMP, JEQ and JNE (44_control_flow.md): the five instructions that set `pc` themselves. A
target is a byte, zero-extended; it needs no alignment and cannot be out of range (R155). -/

namespace Sys2Proof.Machine

/-- `pc <- x[r]`. -/
def jumpTo (s : State) (r : RegIx) : State := setPc s (targetOf (getReg s r))

/-- A conditional jump: to `x[o1]` if the condition holds, else `pc <- a + 2`; the operand is checked either way
(40_engine_cycle.md R105). -/
def execJumpIf (taken : Bool) (o1 : Byte) (s : State) : Answer :=
  withReg s o1 fun r => .next (if taken then jumpTo s r else advance s 2)

/-- CALL (44_control_flow.md R150): the range of `sp` is checked before the return address, which is pushed before the
jump. -/
def execCall (o1 : Byte) (s : State) : Answer :=
  withReg s o1 fun r =>
  attempt s (pushRoom s) fun _ =>
  attempt s (returnAddress s) fun ra =>
  attempt s (pushByte s ra) fun t =>
  .next (setPc t (targetOf (getReg s r)))

/-- RET (44_control_flow.md R151): `pc <- MemRead(sp, 1); sp <- sp + 1`. -/
def execRet (s : State) : Answer :=
  attempt s (popRoom s) fun _ =>
  attempt s (topByte s) fun v =>
  .next (setPc (dropTop s) (targetOf v))

/-- JMP: `pc <- x[o1]` (44_control_flow.md R152). -/
def execJmp (o1 : Byte) (s : State) : Answer := withReg s o1 fun r => .next (jumpTo s r)

/-- JEQ: taken when Equal is set (44_control_flow.md R153). -/
def execJeq (o1 : Byte) (s : State) : Answer := execJumpIf (equalSet s) o1 s

/-- JNE: taken when Equal is clear (44_control_flow.md R154). -/
def execJne (o1 : Byte) (s : State) : Answer := execJumpIf (!equalSet s) o1 s

end Sys2Proof.Machine
end

