-- ==== Sys2Proof/Machine/DataOutputHalt.lean ====
section
/-! DEFINITION. LDI, PRN and HLT (41_data_output_halt.md). Fetch and decode have succeeded before a meaning is called;
each meaning makes its checks before it writes (60_exceptions.md R195). -/

namespace Sys2Proof.Machine

/-- LDI: `x[o1] <- o2; pc <- a + 3` (41_data_output_halt.md R120). -/
def execLdi (o1 o2 : Byte) (s : State) : Answer :=
  withReg s o1 fun r => .next (advance (setReg s r o2) 3)

/-- PRN: `out <- out ++ [x[o1]]; pc <- a + 2` (41_data_output_halt.md R121). -/
def execPrn (o1 : Byte) (s : State) : Answer :=
  withReg s o1 fun r => .next (advance (emit s (getReg s r)) 2)

/-- HLT: `run <- HALTED; pc <- a + 1` (41_data_output_halt.md R122; the `pc` is the spec's decision D16, log entry 3). -/
def execHlt (s : State) : Answer := .next (advance (halt s) 1)

end Sys2Proof.Machine
end

