-- ==== Sys2Proof/Machine/Stack.lean ====
section
/-! DEFINITION. PUSH and POP (43_stack.md). The faults come in the order of 60_exceptions.md R198: the register index,
then the range of `sp`. -/

namespace Sys2Proof.Machine

/-- PUSH (43_stack.md R140): one byte to `sp - 1`, then `sp <- sp - 1; pc <- a + 2`. -/
def execPush (o1 : Byte) (s : State) : Answer :=
  withReg s o1 fun r =>
  attempt s (pushRoom s) fun _ =>
  attempt s (pushByte s (getReg s r)) fun t =>
  .next (advance t 2)

/-- POP (43_stack.md R141): `x[o1] <- MemRead(sp, 1); sp <- sp + 1; pc <- a + 2`. -/
def execPop (o1 : Byte) (s : State) : Answer :=
  withReg s o1 fun r =>
  attempt s (popRoom s) fun _ =>
  attempt s (topByte s) fun v =>
  .next (advance (dropTop (setReg s r v)) 2)

end Sys2Proof.Machine
end

