-- ==== Sys2Proof/Syntax.lean ====
section
/-! DEFINITION. The thirteen instructions of 30_encoding.md R84, in the order of its table, each with the operand bytes
of its format (R81). An operand that names a register is the WHOLE operand byte as fetched (R83): a byte of 8 or more
is a form of the instruction too, one whose execution raises `InvalidRegister`. -/

namespace Sys2Proof

/-- An instruction with its operand bytes, first operand first (30_encoding.md R81, R84). -/
inductive Instr where
  /-- `LDI`: `reg` is the destination register, `value` the immediate (R120). -/
  | ldi (reg value : Byte)
  /-- `PRN`: `reg` is the source register (R121). -/
  | prn (reg : Byte)
  /-- `HLT` (R122). -/
  | hlt
  /-- `MUL`: `regA` is the destination and first source, `regB` the second source (R138). -/
  | mul (regA regB : Byte)
  /-- `ADD`: `regA` is the destination and first source, `regB` the second source (R137). -/
  | add (regA regB : Byte)
  /-- `PUSH`: `reg` is the source register (R140). -/
  | push (reg : Byte)
  /-- `POP`: `reg` is the destination register (R141). -/
  | pop (reg : Byte)
  /-- `CALL`: `reg` holds the target address (R150). -/
  | call (reg : Byte)
  /-- `RET` (R151). -/
  | ret
  /-- `CMP`: `regA` is the left operand, `regB` the right one (R139). -/
  | cmp (regA regB : Byte)
  /-- `JMP`: `reg` holds the target address (R152). -/
  | jmp (reg : Byte)
  /-- `JEQ`: `reg` holds the target address (R153). -/
  | jeq (reg : Byte)
  /-- `JNE`: `reg` holds the target address (R154). -/
  | jne (reg : Byte)
  deriving DecidableEq, Repr

end Sys2Proof
end

