-- ==== Sys2Proof/Decode.lean ====
section
/-! DEFINITION. The encoding of 30_encoding.md: the opcode table `OPC` (R84, R85), the formats (R81), the decoder
(40_engine_cycle.md R101 to R103) and the encoder. The decoder matches the whole opcode byte and uses no field of it
(R82, R86). It is written once, over any way of reading byte `k` of the instruction: the engine reads memory with it
(Machine/Engine.lean), `decode` reads a list of bytes. -/

namespace Sys2Proof

/-- The name in the first column of the opcode table (30_encoding.md R84): a closed set of thirteen (R102). -/
inductive Opcode where
  | ldi | prn | hlt | mul | add | push | pop | call | ret | cmp | jmp | jeq | jne
  deriving DecidableEq, Repr

/-- The four formats of 30_encoding.md R81. -/
inductive Format where
  /-- No operand. -/
  | z
  /-- One register index. -/
  | r
  /-- Two register indices. -/
  | rr
  /-- A register index, then an immediate. -/
  | ri
  deriving DecidableEq, Repr

/-- The rows of the opcode table, in its order (30_encoding.md R84). -/
def opcodes : List Opcode :=
  [.ldi, .prn, .hlt, .mul, .add, .push, .pop, .call, .ret, .cmp, .jmp, .jeq, .jne]

/-- The table `OPC`: the opcode byte of each row (30_encoding.md R84). `LDI`, `PRN` and `HLT` are the source's, the
other ten are the spec's decision D1 (R85; log entry 1). -/
def opcodeByte : Opcode → Byte
  | .ldi => 0b10000010#8
  | .prn => 0b01000111#8
  | .hlt => 0b00000001#8
  | .mul => 0b10100010#8
  | .add => 0b10100000#8
  | .push => 0b01000101#8
  | .pop => 0b01000110#8
  | .call => 0b01010000#8
  | .ret => 0b00010001#8
  | .cmp => 0b10100111#8
  | .jmp => 0b01010100#8
  | .jeq => 0b01010101#8
  | .jne => 0b01010110#8

/-- The format column of the opcode table (30_encoding.md R84). -/
def opcodeFormat : Opcode → Format
  | .ldi => .ri
  | .prn => .r
  | .hlt => .z
  | .mul => .rr
  | .add => .rr
  | .push => .r
  | .pop => .r
  | .call => .r
  | .ret => .z
  | .cmp => .rr
  | .jmp => .r
  | .jeq => .r
  | .jne => .r

/-- The length of an instruction of a format, opcode byte included (30_encoding.md R81). -/
def formatLength : Format → Nat
  | .z => 1
  | .r => 2
  | .rr => 3
  | .ri => 3

/-- The length of an instruction, told from its opcode alone (30_encoding.md R82). -/
def opcodeLength (k : Opcode) : Nat := formatLength (opcodeFormat k)

/-- The row whose opcode byte is `b`, all eight bits compared, or none (40_engine_cycle.md R102). -/
def opcodeOfByte (b : Byte) : Option Opcode := opcodes.find? (fun k => opcodeByte k == b)

/-- The instruction of a row with operand bytes `o1` and `o2`; an operand the format does not have is ignored
(30_encoding.md R81). -/
def buildInstr (k : Opcode) (o1 o2 : Byte) : Instr :=
  match k with
  | .ldi => .ldi o1 o2
  | .prn => .prn o1
  | .hlt => .hlt
  | .mul => .mul o1 o2
  | .add => .add o1 o2
  | .push => .push o1
  | .pop => .pop o1
  | .call => .call o1
  | .ret => .ret
  | .cmp => .cmp o1 o2
  | .jmp => .jmp o1
  | .jeq => .jeq o1
  | .jne => .jne o1

/-- Reads byte 1 of the instruction when its length is 2 or 3 (40_engine_cycle.md R103). -/
def readOperand1 {ε : Type} (read : Nat → Except ε Byte) (len : Nat) : Except ε Byte :=
  if 2 ≤ len then read 1 else .ok 0

/-- Reads byte 2 of the instruction when its length is 3 (40_engine_cycle.md R103). -/
def readOperand2 {ε : Type} (read : Nat → Except ε Byte) (len : Nat) : Except ε Byte :=
  if len = 3 then read 2 else .ok 0

/-- Fetch and decode in the order of 40_engine_cycle.md R110: byte 0, the table lookup, byte 1, byte 2. `read k` reads
byte `k` of the instruction or says why it cannot, `unknown` names an opcode byte that is in no row. -/
def decodeFrom {ε : Type} (read : Nat → Except ε Byte) (unknown : Byte → ε) : Except ε Instr :=
  match read 0 with
  | .error e => .error e
  | .ok op =>
    match opcodeOfByte op with
    | none => .error (unknown op)
    | some k =>
      match readOperand1 read (opcodeLength k) with
      | .error e => .error e
      | .ok o1 =>
        match readOperand2 read (opcodeLength k) with
        | .error e => .error e
        | .ok o2 => .ok (buildInstr k o1 o2)

/-- Why a list of bytes begins with no instruction. -/
inductive DecodeError where
  /-- The opcode byte is in no row of the table (30_encoding.md R87). -/
  | unknownInstruction (op : Byte)
  /-- The list ends before byte `k` of the instruction (byte 0 is the opcode). -/
  | missingByte (k : Nat)
  deriving DecidableEq, Repr

/-- Byte `k` of a list of bytes. -/
def byteOf (bytes : List Byte) (k : Nat) : Except DecodeError Byte :=
  match bytes[k]? with
  | some b => .ok b
  | none => .error (.missingByte k)

/-- The row an instruction is of. -/
def opcodeOf : Instr → Opcode
  | .ldi _ _ => .ldi
  | .prn _ => .prn
  | .hlt => .hlt
  | .mul _ _ => .mul
  | .add _ _ => .add
  | .push _ => .push
  | .pop _ => .pop
  | .call _ => .call
  | .ret => .ret
  | .cmp _ _ => .cmp
  | .jmp _ => .jmp
  | .jeq _ => .jeq
  | .jne _ => .jne

/-- The number of bytes an instruction occupies (30_encoding.md R80). -/
def instrLength (i : Instr) : Nat := opcodeLength (opcodeOf i)

/-- The instruction a list of bytes begins with, and the bytes after it, which belong to the next instruction
(30_encoding.md R80, R88). -/
def decode (bytes : List Byte) : Except DecodeError (Instr × List Byte) :=
  match decodeFrom (byteOf bytes) .unknownInstruction with
  | .error e => .error e
  | .ok i => .ok (i, bytes.drop (instrLength i))

/-- The instructions a list of bytes holds back to back, at most `fuel` of them (30_encoding.md R88). -/
def decodeProgram : Nat → List Byte → Except DecodeError (List Instr)
  | 0, _ => .ok []
  | _ + 1, [] => .ok []
  | fuel + 1, bytes =>
    match decode bytes with
    | .error e => .error e
    | .ok (i, rest) =>
      match decodeProgram fuel rest with
      | .error e => .error e
      | .ok is => .ok (i :: is)

/-- The operand bytes of an instruction in encoding order (30_encoding.md R81). -/
def operandBytes : Instr → List Byte
  | .ldi r v => [r, v]
  | .prn r => [r]
  | .hlt => []
  | .mul a b => [a, b]
  | .add a b => [a, b]
  | .push r => [r]
  | .pop r => [r]
  | .call r => [r]
  | .ret => []
  | .cmp a b => [a, b]
  | .jmp r => [r]
  | .jeq r => [r]
  | .jne r => [r]

/-- The bytes of an instruction, opcode first, at ascending addresses (30_encoding.md R80, 20_memory.md R55). -/
def encode (i : Instr) : List Byte := opcodeByte (opcodeOf i) :: operandBytes i

/-- The three bytes a number stands for in the numbering of spec/opcode_table.json: byte `k` is bits `8*k+7` to `8*k`,
and every bit from `nbits` up is 0. Three is the longest instruction. -/
def tableBytes (nbits w : Nat) : List Byte :=
  [BitVec.ofNat 8 (w % 2 ^ nbits), BitVec.ofNat 8 (w % 2 ^ nbits / 256), BitVec.ofNat 8 (w % 2 ^ nbits / 65536)]

/-- The instruction the decoder reads from the bits `w`, numbered as spec/opcode_table.json numbers them. -/
def decodeTableWord (nbits w : Nat) : Option Instr :=
  match decode (tableBytes nbits w) with
  | .ok (i, _) => some i
  | .error _ => none

end Sys2Proof
end

