-- ==== Sys2Proof/Machine/Engine.lean ====
section
/-! DEFINITION. What the engine does around an instruction: fetching and decoding at `pc` (40_engine_cycle.md R101 to
R103), resting when it has stopped (R100), and placing an instruction where the next fetch reads it. -/

namespace Sys2Proof.Machine

/-- `MemRead(a + k, 1)`: byte `k` of the instruction at `a = pc` (40_engine_cycle.md R101, R103). -/
def fetchByte (s : State) (k : Nat) : Except Raise Byte := memRead s ((s.pc.toNat : Int) + (k : Int))

/-- Fetch and decode: the instruction at `pc`, or the fault that fetching or decoding it raises (40_engine_cycle.md
R110, first six lines). -/
def fetch (s : State) : Except Raise Instr := decodeFrom (fetchByte s) raiseUnknownInstruction

/-- A stopped engine takes no step and its state does not change (40_engine_cycle.md R100; log entry 4). -/
def rest (s : State) : Answer := .next s

/-- The state with the instruction of a table word stored at `pc` upward. -/
def placeTableWord (s : State) (nbits w : Nat) : State :=
  { s with mem := placeBytes s.mem s.pc.toNat (tableBytes nbits w) }

end Sys2Proof.Machine
end

