-- ==== Sys2Proof/Machine/Step.lean ====
section
/-! DEFINITION. One step of the engine (40_engine_cycle.md R110), and the state with an instruction placed at `pc`. -/

namespace Sys2Proof.Machine

/-- While `run = RUNNING` a step fetches, decodes and executes one instruction or raises one fault; otherwise the state
does not change (40_engine_cycle.md R100, R110). -/
def step (s : State) : Host.Outcome State Fault Refusal :=
  match s.run with
  | .running => attempt s (fetch s) fun i => exec i s
  | .halted => rest s
  | .faulted => rest s

/-- `s` with the instruction whose bits are `w` stored where the next step fetches it. A program reaches memory by the
host's load (log entry 8), which this stands for. -/
def State.withFetchWord (s : State) (nbits w : Nat) : State := placeTableWord s nbits w

end Sys2Proof.Machine
end

