-- ==== Sys2Proof/Machine/ProgramText.lean ====
section
/-! DEFINITION. The text of a program as the host's loader reads it (45_host_interface.md R171). This is host software,
outside the core (00_scope.md R5(a)); it is modelled so that the spec's program texts can be read. What R171 leaves
unstated of the loader's leniency is an argument, `Config.TextLeniency` (log entry 10); every line it does not read is a
malformed token, a load error (60_exceptions.md R202). -/

namespace Sys2Proof.Machine

/-- Why a launch does not start the core (60_exceptions.md R202, 45_host_interface.md R172, R173, R179). -/
inductive LaunchError where
  /-- Not exactly one argument (R179). -/
  | usage
  /-- The program file is missing (R171). -/
  | fileNotFound
  /-- A line that is no binary literal of a byte (R171, R202). -/
  | malformedToken
  /-- More than 256 bytes (R172). -/
  | imageTooLong
  deriving DecidableEq, Repr

/-- White space: tab, line feed, vertical tab, form feed, carriage return, the separators 1C to 1F, the space, the next
line and the Unicode spaces. DESIGN CHOICE (log entry 10): R171 does not say which characters are white space. -/
def isWhite (c : Char) : Bool :=
  let n := c.toNat
  (9 ≤ n && n ≤ 13) || (28 ≤ n && n ≤ 32) || n = 0x85 || n = 0xA0 || n = 0x1680 || (0x2000 ≤ n && n ≤ 0x200A) ||
    n = 0x2028 || n = 0x2029 || n = 0x202F || n = 0x205F || n = 0x3000

/-- Where a line ends: at a line feed, and at what other white space the leniency says, but never at a space or a tab
(45_host_interface.md R171; log entry 10). -/
def isLineEnd (l : Config.TextLeniency) (c : Char) : Bool :=
  c == '\n' || (isWhite c && c != ' ' && c != '\t' && l.endsLine c)

/-- The lines of a text. -/
def splitLines (l : Config.TextLeniency) : List Char → List (List Char)
  | [] => [[]]
  | c :: cs =>
    if isLineEnd l c then [] :: splitLines l cs
    else
      match splitLines l cs with
      | [] => [[c]]
      | x :: xs => (c :: x) :: xs

/-- A line without its comment, which runs from a `#` to the end of the line (45_host_interface.md R171). -/
def stripComment (x : List Char) : List Char := x.takeWhile (fun c => c != '#')

/-- A line without the characters at its end that `p` names. -/
def dropEnd (p : Char → Bool) (x : List Char) : List Char := (x.reverse.dropWhile p).reverse

/-- A line without the spaces at its end, such as stand before a comment. DEDUCED from the source's program text
(95_test_vectors.md S2; log entry 10). -/
def stripSpaces (x : List Char) : List Char := dropEnd (fun c => c == ' ') x

/-- What stands between the white space around a line. -/
def tokenOf (x : List Char) : List Char := dropEnd isWhite (x.dropWhile isWhite)

/-- The white space before a token. -/
def whiteBefore (x : List Char) : List Char := x.takeWhile isWhite

/-- The white space after a token. -/
def whiteAfter (x : List Char) : List Char := (x.reverse.takeWhile isWhite).reverse

/-- The characters of a base-2 literal. -/
def isBinaryDigit (c : Char) : Bool := c == '0' || c == '1'

/-- The value of a base-2 literal, first digit most significant (45_host_interface.md R171, 00_scope.md R7). -/
def binaryValue (t : List Char) : Nat := t.foldl (fun n c => 2 * n + (if c = '1' then 1 else 0)) 0

/-- The byte a token stands for (45_host_interface.md R171): eight binary digits, or as many as the leniency reads with
a value in 0..255. Every other token is malformed: one with a character that is no binary digit, white space inside it
included, and one with a value above 255. -/
def parseToken (l : Config.TextLeniency) (t : List Char) : Except LaunchError Byte :=
  if t.all isBinaryDigit && (t.length = 8 || (binaryValue t < 256 && l.digits t.length)) then
    .ok (BitVec.ofNat 8 (binaryValue t))
  else .error .malformedToken

/-- The byte of a line, none where the line is blank or holds only a comment (45_host_interface.md R171). White space
around the token is read only where the leniency says so; otherwise the line is malformed. -/
def parseLine (l : Config.TextLeniency) (line : List Char) : Except LaunchError (Option Byte) :=
  let x := stripSpaces (stripComment line)
  if x.all isWhite then .ok none
  else if (whiteBefore x ++ whiteAfter x).isEmpty || l.surrounds (whiteBefore x) (whiteAfter x) then
    match parseToken l (tokenOf x) with
    | .error e => .error e
    | .ok b => .ok (some b)
  else .error .malformedToken

/-- The bytes of a list of lines in file order; blank and comment-only lines are skipped (45_host_interface.md R171). -/
def parseLines (l : Config.TextLeniency) : List (List Char) → Except LaunchError (List Byte)
  | [] => .ok []
  | x :: xs =>
    match parseLine l x with
    | .error e => .error e
    | .ok b =>
      match parseLines l xs with
      | .error e => .error e
      | .ok bs => .ok (b.toList ++ bs)

/-- The program image a text stands for (45_host_interface.md R171). -/
def parseProgramText (l : Config.TextLeniency) (text : List Char) : Except LaunchError (List Byte) :=
  parseLines l (splitLines l text)

end Sys2Proof.Machine
end

