-- ==== Sys2Proof/Machine/Status.lean ====
section
/-! DEFINITION. What the host reads: the status interface (45_host_interface.md R177), the codes of the fault causes
(60_exceptions.md R192), the output text (R176) and the exit code (R180). -/

namespace Sys2Proof.Machine

/-- The code of a cause (60_exceptions.md R192). -/
def causeCode : Cause → Nat
  | .outOfBounds => 1
  | .invalidRegister => 2
  | .unknownInstruction => 3
  | .unsupportedOperation => 4

/-- The status interface: `run`, and the fault record when `run = FAULTED` (45_host_interface.md R177). -/
def status (s : State) : RunState × Option FaultRecord :=
  match s.run with
  | .running => (.running, none)
  | .halted => (.halted, none)
  | .faulted => (.faulted, s.fault)

/-- The fault code the status shows: 0 is no fault (60_exceptions.md R192). -/
def faultCode (s : State) : Nat :=
  match (status s).2 with
  | none => 0
  | some r => causeCode r.cause

/-- The unsigned decimal of a byte, with no sign, no leading zeros and no padding (45_host_interface.md R176). -/
def decimal (b : Byte) : List Char :=
  if b.toNat < 10 then [Nat.digitChar b.toNat]
  else if b.toNat < 100 then [Nat.digitChar (b.toNat / 10), Nat.digitChar (b.toNat % 10)]
  else [Nat.digitChar (b.toNat / 100), Nat.digitChar (b.toNat / 10 % 10), Nat.digitChar (b.toNat % 10)]

/-- The text of the output stream: each value's decimal and one line feed, in order (45_host_interface.md R176). -/
def render (out : List Byte) : List Char := out.flatMap (fun b => decimal b ++ ['\n'])

/-- The exit code of a launch that did not start the core, never zero (45_host_interface.md R180, 60_exceptions.md
R202). -/
def launchExitCode (c : Config.ExitCodes) : LaunchError → Nat
  | .usage => c.usage
  | .fileNotFound => c.fileNotFound
  | .malformedToken => c.load
  | .imageTooLong => c.load

/-- The exit code of a run in the state it has reached: none while it has not ended (45_host_interface.md R180). -/
def runExitCode (c : Config.ExitCodes) (s : State) : Option Nat :=
  match s.run with
  | .running => none
  | .halted => some Config.exitOk
  | .faulted => some c.runtime

end Sys2Proof.Machine
end

