-- ==== Sys2Proof/Machine/Launch.lean ====
section
/-! DEFINITION. What the host does before a run: reset, load, and the process around them (45_host_interface.md R170,
R172 to R174, R179; 70_reset_and_hazards.md R230 to R232). After a successful launch the engine steps from the state
answered here, with no start command (R174). -/

namespace Sys2Proof.Machine

/-- Reset: one atomic action, allowed in any run state, after which nothing of the old state is left
(70_reset_and_hazards.md R230, R231). -/
def resetCore (_s : State) : State := State.reset

/-- Load: the image to cells 0, 1, 2, ..., and nothing else changed; an image of more than 256 bytes is a load error
(45_host_interface.md R172). The host loads only into a core that has just been reset. -/
def loadImage (s : State) (image : List Byte) : Except LaunchError State :=
  if image.length ≤ Config.memSize then .ok { s with mem := placeBytes s.mem 0 image } else .error .imageTooLong

/-- The boot sequence: reset, then load (70_reset_and_hazards.md R232). -/
def boot (image : List Byte) : Except LaunchError State := loadImage State.reset image

/-- The invocation of the process: exactly one argument, the program file, given here as its text, or none where the
file is missing (45_host_interface.md R171, R179). `l` is the leniency of the loader (log entry 10).
The whole text is read before the image is loaded, so that a malformed line is reported where the text has more than 256
byte lines too. DESIGN CHOICE (log entry 15): the spec does not say which load error is named first. -/
def invoke (l : Config.TextLeniency) (args : List (Option (List Char))) : Except LaunchError State :=
  match args with
  | [some text] =>
    match parseProgramText l text with
    | .error e => .error e
    | .ok image => boot image
  | [none] => .error .fileNotFound
  | _ => .error .usage

end Sys2Proof.Machine
end

