-- ==== Sys2Proof/Safety.lean ====
section
/-! DEFINITION. What claims are stated in: the invariant of the machine, and the end of a run (10_state.md R34,
70_reset_and_hazards.md R237). -/

namespace Sys2Proof.Machine

/-- No two flags are set together: all are clear after reset, and a CMP sets exactly one (10_state.md R30). -/
def flagsExclusive (f : Flags) : Bool :=
  !(f.equal && f.lessThan) && !(f.equal && f.greaterThan) && !(f.lessThan && f.greaterThan)

/-- The information a cause can carry (60_exceptions.md R192): 256 or -1 for OutOfBounds, an operand byte of 8 or more for
InvalidRegister, a byte in no row of the opcode table for UnknownInstruction; UnsupportedOperation is never raised. -/
def faultInfoLegal (r : FaultRecord) : Bool :=
  match r.cause with
  | .outOfBounds => decide (r.info = 256) || decide (r.info = -1)
  | .invalidRegister => decide (8 ≤ r.info) && decide (r.info ≤ 255)
  | .unknownInstruction =>
    decide (0 ≤ r.info) && decide (r.info ≤ 255) && (opcodeOfByte (BitVec.ofInt 8 r.info) == none)
  | .unsupportedOperation => false

/-- A fault record is there exactly when `run = FAULTED`, is legal, and holds the address that `pc` still holds
(60_exceptions.md R191, R192). -/
def faultRecorded (s : State) : Bool :=
  match s.run, s.fault with
  | .running, none => true
  | .halted, none => true
  | .faulted, some r => (r.addr == s.pc) && faultInfoLegal r
  | .running, some _ => false
  | .halted, some _ => false
  | .faulted, none => false

/-- The invariant: memory is in canonical form, `pc` is in 0..256 (10_state.md R25), no two flags are set together, and
the fault record fits the run state. -/
abbrev State.Inv (s : State) : Prop :=
  Memory.wf s.mem = true ∧ s.pc.toNat ≤ 256 ∧ flagsExclusive s.flags = true ∧ faultRecorded s = true

/-- The state is one a run from this program image passes through. -/
def Reachable (image : List Byte) (t : State) : Prop :=
  ∃ s n, boot image = .ok s ∧ Sys2Proof.core.run n s = .next t

/-- A successful end (10_state.md R34): HLT has executed. A faulted state is no success. -/
abbrev State.Succeeded (s : State) : Prop := s.run = .halted

/-- A failed end (10_state.md R34). -/
abbrev State.Failed (s : State) : Prop := s.run = .faulted

/-- A run of the program image ends successfully with the output `out` (70_reset_and_hazards.md R237). -/
def RunPrints (image : List Byte) (out : List Byte) : Prop :=
  ∃ t, Reachable image t ∧ t.Succeeded ∧ t.out = out

end Sys2Proof.Machine
end

