-- ==== Sys2Proof/WellFormed.lean ====
section
/-! DEFINITION. When an instruction is well-formed: each of its register operands names one of the eight registers
(10_state.md R24). Every byte string that decodes is an instruction; one that is not well-formed raises
`InvalidRegister` when it is executed (40_engine_cycle.md R105). -/

namespace Sys2Proof

/-- A register index is valid when it is in 0..7 (10_state.md R24); it is never masked to three bits (30_encoding.md
R83). -/
def isRegIndex (o : Byte) : Bool := decide (o.toNat < Config.nreg)

/-- The operands that are register indices, in the order in which the engine checks them (40_engine_cycle.md R104,
R105). The immediate of `LDI` is not one. -/
def Instr.regOperands : Instr → List Byte
  | .ldi r _ => [r]
  | .prn r => [r]
  | .hlt => []
  | .mul a b => [a, b]
  | .add a b => [a, b]
  | .push r => [r]
  | .pop r => [r]
  | .call r => [r]
  | .ret => []
  | .cmp a b => [a, b]
  | .jmp r => [r]
  | .jeq r => [r]
  | .jne r => [r]

/-- Every register operand is a valid index (10_state.md R24). -/
def WellFormed (i : Instr) : Bool := i.regOperands.all isRegIndex

end Sys2Proof
end

