-- ==== Sys2Proof/Certificates/Slice0/Obligations.lean ====
section
/-! DEFINITION. The statements for the provers, each from the rules of spec/ that its docstring cites. The first part
holds the words the statements share: they are written from the spec, not from the model's own definitions. -/

namespace Sys2Proof.Statements

open Sys2Proof Sys2Proof.Machine

/-- The state at the start of a step with `run = FAULTED` and the fault record latched, and nothing else changed
(60_exceptions.md R195, R196). -/
def faulted (s : State) (c : Cause) (info : Int) : State :=
  { s with run := .faulted, fault := some { cause := c, info := info, addr := s.pc } }

/-- The core is running and the opcode byte at `pc` is `op`. -/
abbrev startsWith (s : State) (op : Byte) : Prop :=
  s.run = .running ∧ s.pc.toNat ≤ 255 ∧ byteAt s s.pc.toNat = op

/-- The first operand byte, at `a + 1` (30_encoding.md R81). -/
def o1 (s : State) : Byte := byteAt s (s.pc.toNat + 1)

/-- The second operand byte, at `a + 2` (30_encoding.md R81). -/
def o2 (s : State) : Byte := byteAt s (s.pc.toNat + 2)

/-- The bytes from `pc` to the end of memory. -/
def codeBytes (s : State) : List Byte :=
  (List.range (256 - s.pc.toNat)).map fun k => byteAt s (s.pc.toNat + k)

/-- The opcode column of 30_encoding.md R84. -/
def listed : List Byte :=
  [0x82#8, 0x47#8, 0x01#8, 0xA2#8, 0xA0#8, 0x45#8, 0x46#8, 0x50#8, 0x11#8, 0xA7#8, 0x54#8, 0x55#8, 0x56#8]

/-- The opcodes of length 1: HLT, RET (30_encoding.md R84). -/
def oneByte : List Byte := [0x01#8, 0x11#8]

/-- The opcodes of length 3: LDI, MUL, ADD, CMP (30_encoding.md R84). -/
def threeByte : List Byte := [0x82#8, 0xA2#8, 0xA0#8, 0xA7#8]

/-- The opcodes of format `RR`: MUL, ADD, CMP (30_encoding.md R84). -/
def twoRegister : List Byte := [0xA2#8, 0xA0#8, 0xA7#8]

/-- The fault that a step of a running core reports, in the fixed order of 60_exceptions.md R198, or none. -/
def firstFault (s : State) : Option (Cause × Int) :=
  let a := s.pc.toNat
  let op := byteAt s a
  if 256 ≤ a then some (.outOfBounds, (a : Int))
  else if op ∉ listed then some (.unknownInstruction, (op.toNat : Int))
  else if op ∉ oneByte ∧ 256 ≤ a + 1 then some (.outOfBounds, 256)
  else if op ∈ threeByte ∧ 256 ≤ a + 2 then some (.outOfBounds, 256)
  else if op ∉ oneByte ∧ 8 ≤ (o1 s).toNat then some (.invalidRegister, ((o1 s).toNat : Int))
  else if op ∈ twoRegister ∧ 8 ≤ (o2 s).toNat then some (.invalidRegister, ((o2 s).toNat : Int))
  else if (op = 0x45#8 ∨ op = 0x50#8) ∧ s.sp = 0#8 then some (.outOfBounds, -1)
  else if (op = 0x46#8 ∨ op = 0x11#8) ∧ s.sp = 255#8 then some (.outOfBounds, 256)
  else if op = 0x50#8 ∧ a = 254 then some (.outOfBounds, 256)
  else none

/-- The register an instruction writes, if it writes one: the table of 10_state.md R23. -/
def destination : Instr → Option Byte
  | .ldi r _ => some r
  | .prn _ => none
  | .hlt => none
  | .mul a _ => some a
  | .add a _ => some a
  | .push _ => none
  | .pop r => some r
  | .call _ => none
  | .ret => none
  | .cmp _ _ => none
  | .jmp _ => none
  | .jeq _ => none
  | .jne _ => none

/-- The program line of a byte: eight binary digits, the first of them bit 7 (45_host_interface.md R171). -/
def literal (b : Byte) : List Char :=
  [7, 6, 5, 4, 3, 2, 1, 0].map fun k => if b.getLsbD k then '1' else '0'

/-- A line of a program text: a byte or none, spaces after it, a comment or none. -/
abbrev SourceLine : Type := Option Byte × Nat × Option (List Char)

/-- The text of a line, its line feed included (45_host_interface.md R171). -/
def SourceLine.text : SourceLine → List Char
  | (b, n, c) =>
    (match b with | some b => literal b | none => []) ++ List.replicate n ' ' ++
      (match c with | some c => '#' :: c | none => []) ++ ['\n']

/-- No character of the comment could end a line: of white space it holds spaces and tabs only. -/
abbrev SourceLine.ok (x : SourceLine) : Prop :=
  ∀ c ∈ x.2.2.getD [], isWhite c = true → c = ' ' ∨ c = '\t'

/-- A line that is no binary literal of a byte on any reading of 45_host_interface.md R171: it has no comment, and it
holds a character that is neither white space nor a binary digit, or blanks between two digits, or a literal of more than
eight digits whose first is 1, a value above 255. -/
def unreadable (line : List Char) : Prop :=
  '#' ∉ line ∧
    ((∃ c, c ∈ line ∧ isWhite c = false ∧ c ≠ '0' ∧ c ≠ '1') ∨
      (∃ x d w e y, line = x ++ d :: (w ++ e :: y) ∧ d ∈ ['0', '1'] ∧ e ∈ ['0', '1'] ∧ w ≠ [] ∧ ∀ c ∈ w, c = ' ' ∨ c = '\t') ∨
      (∃ ds, line = '1' :: ds ∧ 8 ≤ ds.length ∧ ∀ c ∈ ds, c = '0' ∨ c = '1'))

/-- What follows this text is the start of a line. -/
abbrev startsLine (pre : List Char) : Prop := pre.getLast? = none ∨ pre.getLast? = some '\n'

/-- What stands before this text is the end of a token: the text is empty, or a line feed or a comment follows. -/
abbrev endsToken (post : List Char) : Prop := post.head? = none ∨ post.head? = some '\n' ∨ post.head? = some '#'

end Sys2Proof.Statements

open Sys2Proof Sys2Proof.Machine Sys2Proof.Statements

/-! ### Encoding -/

/-- O1. 30_encoding.md R81, R84: the opcode byte and the operand bytes of each of the thirteen instructions; the bytes
after it are left over. The ten bytes that are not the source's rest on 92_eei_decisions.md D1 (log entry 1). -/
def Obligations.EveryRowOfTheOpcodeTableDecodes : Prop :=
  ∀ (x y : Byte) (rest : List Byte),
    decode (0x82#8 :: x :: y :: rest) = .ok (.ldi x y, rest) ∧
    decode (0x47#8 :: x :: rest) = .ok (.prn x, rest) ∧
    decode (0x01#8 :: rest) = .ok (.hlt, rest) ∧
    decode (0xA2#8 :: x :: y :: rest) = .ok (.mul x y, rest) ∧
    decode (0xA0#8 :: x :: y :: rest) = .ok (.add x y, rest) ∧
    decode (0x45#8 :: x :: rest) = .ok (.push x, rest) ∧
    decode (0x46#8 :: x :: rest) = .ok (.pop x, rest) ∧
    decode (0x50#8 :: x :: rest) = .ok (.call x, rest) ∧
    decode (0x11#8 :: rest) = .ok (.ret, rest) ∧
    decode (0xA7#8 :: x :: y :: rest) = .ok (.cmp x y, rest) ∧
    decode (0x54#8 :: x :: rest) = .ok (.jmp x, rest) ∧
    decode (0x55#8 :: x :: rest) = .ok (.jeq x, rest) ∧
    decode (0x56#8 :: x :: rest) = .ok (.jne x, rest)

/-- O2. Words the spec writes out: the source's program (30_encoding.md R85, 95_test_vectors.md S1) and one instruction
of each other family (95_test_vectors.md V-ADD-9, V-STK-6, V-CTL-1). -/
def Obligations.WrittenOutWordsDecode : Prop :=
  decodeProgram 3 [0b10000010#8, 0b00000000#8, 0b00001000#8, 0b01000111#8, 0b00000000#8, 0b00000001#8] =
      .ok [.ldi 0#8 8#8, .prn 0#8, .hlt] ∧
    decode [0b10100000#8, 0b00000111#8, 0b00000000#8] = .ok (.add 7#8 0#8, []) ∧
    decode [0b01000110#8, 0b00000001#8] = .ok (.pop 1#8, []) ∧
    decode [0b01010000#8, 0b00000001#8] = .ok (.call 1#8, [])

/-- O3. Decode and encode agree on whole programs (30_encoding.md R80, R88): instructions encoded back to back decode
to themselves, every operand byte at every value, register operands of 8 and more among them. -/
def Obligations.EncodedProgramsDecodeToThemselves : Prop :=
  ∀ (is : List Instr) (fuel : Nat), is.length ≤ fuel → decodeProgram fuel (is.flatMap encode) = .ok is

/-- O4. An instruction's bytes have one meaning (30_encoding.md R88): what decodes to an instruction is that
instruction's encoding and the bytes left over. -/
def Obligations.WhatDecodesIsTheEncoding : Prop :=
  ∀ (bytes rest : List Byte) (i : Instr), decode bytes = .ok (i, rest) → bytes = encode i ++ rest

/-- O5. 30_encoding.md R82: the opcode byte alone tells the length, and an opcode byte in no row fails at once,
whatever follows it. -/
def Obligations.OpcodeByteAloneTellsTheLength : Prop :=
  (∀ (op : Byte) (xs ys xs' ys' : List Byte) (i j : Instr),
    decode (op :: xs) = .ok (i, xs') → decode (op :: ys) = .ok (j, ys') → (encode i).length = (encode j).length) ∧
  (∀ (op : Byte) (xs : List Byte), op ∉ listed → decode (op :: xs) = .error (.unknownInstruction op))

/-! ### The step of the engine -/

/-- O6. 40_engine_cycle.md R106, R110: when the bytes at `pc` decode to an instruction, a step of a running core is the
execution of that instruction, with nothing around it. It holds for every instruction, well-formed or not. -/
def Obligations.StepExecutesTheDecodedInstruction : Prop :=
  ∀ (s : State) (i : Instr) (rest : List Byte),
    s.run = .running → decode (codeBytes s) = .ok (i, rest) → step s = exec i s

/-- O7. 40_engine_cycle.md R101 to R103: where the bytes at `pc` decode to no instruction, a step takes
UnknownInstruction with the opcode byte, or OutOfBounds with 256 for a byte that lies past the end of memory. The
premise `pc ≤ 256` is the invariant of `StepKeepsTheInvariant`. -/
def Obligations.StepFaultsWhereDecodingFails : Prop :=
  ∀ s : State, s.run = .running → s.pc.toNat ≤ 256 →
    (∀ op, decode (codeBytes s) = .error (.unknownInstruction op) →
      step s = .next (faulted s .unknownInstruction (op.toNat : Int))) ∧
    (∀ k, decode (codeBytes s) = .error (.missingByte k) → step s = .next (faulted s .outOfBounds 256))

/-- O8. 40_engine_cycle.md R101: the opcode fetch is a memory read at `pc`; for `pc` in 0..255 it gives that cell, and with
`pc = 256` it raises OutOfBounds(256). -/
def Obligations.OpcodeFetchFaultsOnlyPastTheEnd : Prop :=
  ∀ s : State,
    fetchByte s 0 = memRead s (s.pc.toNat : Int) ∧
    (s.pc.toNat ≤ 255 → memRead s (s.pc.toNat : Int) = .ok (byteAt s s.pc.toNat)) ∧
    (s.run = .running → s.pc.toNat = 256 → step s = .next (faulted s .outOfBounds 256))

/-- O9. 30_encoding.md R87: an opcode byte in no row raises UnknownInstruction with that byte, 0x00 among them, wherever
it stands. Which bytes are rows rests on 92_eei_decisions.md D1 (log entry 1). -/
def Obligations.UnlistedOpcodesRaiseUnknownInstruction : Prop :=
  (∀ (s : State) (op : Byte), startsWith s op → op ∉ listed →
    step s = .next (faulted s .unknownInstruction (op.toNat : Int))) ∧
  0x00#8 ∉ listed ∧
  ((List.range 256).filter fun n => decide (BitVec.ofNat 8 n ∉ listed)).length = 243

/-- O10. 40_engine_cycle.md R100, 60_exceptions.md R197: a core that is halted or faulted takes no further step, however
many are asked for. -/
def Obligations.StoppedCoreNeverChanges : Prop :=
  ∀ (n : Nat) (s : State), s.run ≠ .running → Sys2Proof.core.run n s = .next s

/-- O11. 40_engine_cycle.md R111, 70_reset_and_hazards.md R236: from every state a step answers a next state; nothing
stops outside the state. -/
def Obligations.EveryStepAnswersANextState : Prop :=
  ∀ s : State, ∃ t, step s = .next t

/-! ### One whole step, instruction by instruction: faults in priority order, then the operation -/

/-- O12. 41_data_output_halt.md R120 (LDI). -/
def Obligations.LdiStepFollowsItsRule : Prop :=
  ∀ s : State, startsWith s 0x82#8 →
    step s = .next (
      if 254 ≤ s.pc.toNat then faulted s .outOfBounds 256
      else if h : (o1 s).toNat < 8 then
        { s with regs := s.regs.set (o1 s).toNat (o2 s) h, pc := BitVec.ofNat 9 (s.pc.toNat + 3) }
      else faulted s .invalidRegister ((o1 s).toNat : Int))

/-- O13. 41_data_output_halt.md R121 (PRN). -/
def Obligations.PrnStepFollowsItsRule : Prop :=
  ∀ s : State, startsWith s 0x47#8 →
    step s = .next (
      if s.pc.toNat = 255 then faulted s .outOfBounds 256
      else if h : (o1 s).toNat < 8 then
        { s with out := s.out ++ [s.regs[(o1 s).toNat]'h], pc := BitVec.ofNat 9 (s.pc.toNat + 2) }
      else faulted s .invalidRegister ((o1 s).toNat : Int))

/-- O14. 41_data_output_halt.md R122 (HLT). That `pc` becomes `a + 1` rests on 92_eei_decisions.md D16 (log entry 3). -/
def Obligations.HltStepFollowsItsRule : Prop :=
  ∀ s : State, startsWith s 0x01#8 →
    step s = .next { s with run := .halted, pc := BitVec.ofNat 9 (s.pc.toNat + 1) }

/-- O15. 42_alu.md R138 (MUL), R131. The opcode byte rests on 92_eei_decisions.md D1 (log entry 1). -/
def Obligations.MulStepFollowsItsRule : Prop :=
  ∀ s : State, startsWith s 0xA2#8 →
    step s = .next (
      if 254 ≤ s.pc.toNat then faulted s .outOfBounds 256
      else if h1 : (o1 s).toNat < 8 then
        if h2 : (o2 s).toNat < 8 then
          { s with
            regs := s.regs.set (o1 s).toNat
              (BitVec.ofNat 8 ((s.regs[(o1 s).toNat]'h1).toNat * (s.regs[(o2 s).toNat]'h2).toNat)) h1
            pc := BitVec.ofNat 9 (s.pc.toNat + 3) }
        else faulted s .invalidRegister ((o2 s).toNat : Int)
      else faulted s .invalidRegister ((o1 s).toNat : Int))

/-- O16. 42_alu.md R137 (ADD), R130. The opcode byte rests on 92_eei_decisions.md D1 (log entry 1). -/
def Obligations.AddStepFollowsItsRule : Prop :=
  ∀ s : State, startsWith s 0xA0#8 →
    step s = .next (
      if 254 ≤ s.pc.toNat then faulted s .outOfBounds 256
      else if h1 : (o1 s).toNat < 8 then
        if h2 : (o2 s).toNat < 8 then
          { s with
            regs := s.regs.set (o1 s).toNat
              (BitVec.ofNat 8 ((s.regs[(o1 s).toNat]'h1).toNat + (s.regs[(o2 s).toNat]'h2).toNat)) h1
            pc := BitVec.ofNat 9 (s.pc.toNat + 3) }
        else faulted s .invalidRegister ((o2 s).toNat : Int)
      else faulted s .invalidRegister ((o1 s).toNat : Int))

/-- O17. 43_stack.md R140 (PUSH). The opcode byte rests on 92_eei_decisions.md D1, the fault at `sp = 0` on D3 (log
entries 1, 2). -/
def Obligations.PushStepFollowsItsRule : Prop :=
  ∀ s : State, startsWith s 0x45#8 →
    step s = .next (
      if s.pc.toNat = 255 then faulted s .outOfBounds 256
      else if h : (o1 s).toNat < 8 then
        if s.sp = 0#8 then faulted s .outOfBounds (-1)
        else
          { s with
            mem := Memory.write s.mem (s.sp.toNat - 1) (s.regs[(o1 s).toNat]'h)
            sp := BitVec.ofNat 8 (s.sp.toNat - 1)
            pc := BitVec.ofNat 9 (s.pc.toNat + 2) }
      else faulted s .invalidRegister ((o1 s).toNat : Int))

/-- O18. 43_stack.md R141 (POP). The opcode byte rests on 92_eei_decisions.md D1, the fault at `sp = 255` on D3 (log
entries 1, 2). -/
def Obligations.PopStepFollowsItsRule : Prop :=
  ∀ s : State, startsWith s 0x46#8 →
    step s = .next (
      if s.pc.toNat = 255 then faulted s .outOfBounds 256
      else if h : (o1 s).toNat < 8 then
        if s.sp = 255#8 then faulted s .outOfBounds 256
        else
          { s with
            regs := s.regs.set (o1 s).toNat (byteAt s s.sp.toNat) h
            sp := BitVec.ofNat 8 (s.sp.toNat + 1)
            pc := BitVec.ofNat 9 (s.pc.toNat + 2) }
      else faulted s .invalidRegister ((o1 s).toNat : Int))

/-- O19. 44_control_flow.md R150 (CALL). The opcode byte rests on 92_eei_decisions.md D1, the fault at `sp = 0` on D3, the
fault at `a = 254` on D4 (log entries 1, 2). -/
def Obligations.CallStepFollowsItsRule : Prop :=
  ∀ s : State, startsWith s 0x50#8 →
    step s = .next (
      if s.pc.toNat = 255 then faulted s .outOfBounds 256
      else if h : (o1 s).toNat < 8 then
        if s.sp = 0#8 then faulted s .outOfBounds (-1)
        else if s.pc.toNat = 254 then faulted s .outOfBounds 256
        else
          { s with
            mem := Memory.write s.mem (s.sp.toNat - 1) (BitVec.ofNat 8 (s.pc.toNat + 2))
            sp := BitVec.ofNat 8 (s.sp.toNat - 1)
            pc := BitVec.ofNat 9 (s.regs[(o1 s).toNat]'h).toNat }
      else faulted s .invalidRegister ((o1 s).toNat : Int))

/-- O20. 44_control_flow.md R151 (RET). The opcode byte rests on 92_eei_decisions.md D1, the fault at `sp = 255` on D3
(log entries 1, 2). -/
def Obligations.RetStepFollowsItsRule : Prop :=
  ∀ s : State, startsWith s 0x11#8 →
    step s = .next (
      if s.sp = 255#8 then faulted s .outOfBounds 256
      else
        { s with
          sp := BitVec.ofNat 8 (s.sp.toNat + 1)
          pc := BitVec.ofNat 9 (byteAt s s.sp.toNat).toNat })

/-- O21. 42_alu.md R139 (CMP), R133. The opcode byte rests on 92_eei_decisions.md D1 (log entry 1). -/
def Obligations.CmpStepFollowsItsRule : Prop :=
  ∀ s : State, startsWith s 0xA7#8 →
    step s = .next (
      if 254 ≤ s.pc.toNat then faulted s .outOfBounds 256
      else if h1 : (o1 s).toNat < 8 then
        if h2 : (o2 s).toNat < 8 then
          { s with
            flags :=
              { equal := decide (s.regs[(o1 s).toNat]'h1 = s.regs[(o2 s).toNat]'h2)
                lessThan := decide ((s.regs[(o1 s).toNat]'h1).toNat < (s.regs[(o2 s).toNat]'h2).toNat)
                greaterThan := decide ((s.regs[(o1 s).toNat]'h1).toNat > (s.regs[(o2 s).toNat]'h2).toNat) }
            pc := BitVec.ofNat 9 (s.pc.toNat + 3) }
        else faulted s .invalidRegister ((o2 s).toNat : Int)
      else faulted s .invalidRegister ((o1 s).toNat : Int))

/-- O22. 44_control_flow.md R152 (JMP). The opcode byte rests on 92_eei_decisions.md D1 (log entry 1). -/
def Obligations.JmpStepFollowsItsRule : Prop :=
  ∀ s : State, startsWith s 0x54#8 →
    step s = .next (
      if s.pc.toNat = 255 then faulted s .outOfBounds 256
      else if h : (o1 s).toNat < 8 then { s with pc := BitVec.ofNat 9 (s.regs[(o1 s).toNat]'h).toNat }
      else faulted s .invalidRegister ((o1 s).toNat : Int))

/-- O23. 44_control_flow.md R153 (JEQ). The opcode byte rests on 92_eei_decisions.md D1, the checks of an operand that is
not used on D7 (log entries 1, 2). -/
def Obligations.JeqStepFollowsItsRule : Prop :=
  ∀ s : State, startsWith s 0x55#8 →
    step s = .next (
      if s.pc.toNat = 255 then faulted s .outOfBounds 256
      else if h : (o1 s).toNat < 8 then
        if s.flags.equal = true then { s with pc := BitVec.ofNat 9 (s.regs[(o1 s).toNat]'h).toNat }
        else { s with pc := BitVec.ofNat 9 (s.pc.toNat + 2) }
      else faulted s .invalidRegister ((o1 s).toNat : Int))

/-- O24. 44_control_flow.md R154 (JNE). The opcode byte rests on 92_eei_decisions.md D1, the checks of an operand that is
not used on D7 (log entries 1, 2). -/
def Obligations.JneStepFollowsItsRule : Prop :=
  ∀ s : State, startsWith s 0x56#8 →
    step s = .next (
      if s.pc.toNat = 255 then faulted s .outOfBounds 256
      else if h : (o1 s).toNat < 8 then
        if s.flags.equal = false then { s with pc := BitVec.ofNat 9 (s.regs[(o1 s).toNat]'h).toNat }
        else { s with pc := BitVec.ofNat 9 (s.pc.toNat + 2) }
      else faulted s .invalidRegister ((o1 s).toNat : Int))

/-! ### Where each instruction completes, with its frame: everything a next state does not list is as before -/

/-- O25. LDI completes for every valid register (41_data_output_halt.md R120). -/
def Obligations.LdiCompletes : Prop :=
  ∀ (r v : Byte) (s : State) (h : r.toNat < 8),
    exec (.ldi r v) s = .next { s with regs := s.regs.set r.toNat v h, pc := s.pc + 3#9 }

/-- O26. PRN completes for every valid register (41_data_output_halt.md R121). -/
def Obligations.PrnCompletes : Prop :=
  ∀ (r : Byte) (s : State) (h : r.toNat < 8),
    exec (.prn r) s = .next { s with out := s.out ++ [s.regs[r.toNat]'h], pc := s.pc + 2#9 }

/-- O27. HLT completes from every state (41_data_output_halt.md R122); its `pc` rests on 92_eei_decisions.md D16 (log
entry 3). -/
def Obligations.HltCompletes : Prop :=
  ∀ s : State, exec .hlt s = .next { s with run := .halted, pc := s.pc + 1#9 }

/-- O28. ADD and MUL complete for all valid registers, the same one twice included: the destination holds the exact
sum or product modulo 256, and no flag changes (42_alu.md R130, R131, R137, R138). -/
def Obligations.AddAndMulComplete : Prop :=
  ∀ (a b : Byte) (s : State) (ha : a.toNat < 8) (hb : b.toNat < 8),
    (∃ v : Byte, v.toNat = ((s.regs[a.toNat]'ha).toNat + (s.regs[b.toNat]'hb).toNat) % 256 ∧
      exec (.add a b) s = .next { s with regs := s.regs.set a.toNat v ha, pc := s.pc + 3#9 }) ∧
    (∃ v : Byte, v.toNat = ((s.regs[a.toNat]'ha).toNat * (s.regs[b.toNat]'hb).toNat) % 256 ∧
      exec (.mul a b) s = .next { s with regs := s.regs.set a.toNat v ha, pc := s.pc + 3#9 })

/-- O29. CMP completes for all valid registers and writes all three flags, unsigned, and no register (42_alu.md R133,
R139). -/
def Obligations.CmpCompletes : Prop :=
  ∀ (a b : Byte) (s : State) (ha : a.toNat < 8) (hb : b.toNat < 8),
    exec (.cmp a b) s = .next
      { s with
        flags :=
          { equal := decide (s.regs[a.toNat]'ha = s.regs[b.toNat]'hb)
            lessThan := decide ((s.regs[a.toNat]'ha).toNat < (s.regs[b.toNat]'hb).toNat)
            greaterThan := decide ((s.regs[a.toNat]'ha).toNat > (s.regs[b.toNat]'hb).toNat) }
        pc := s.pc + 3#9 }

/-- O30. PUSH completes for every valid register when `sp` is above 0: one byte stored at the push address, `sp - 1`,
every other byte and everything else as before (43_stack.md R140). The canonical form of memory is the invariant of
`StepKeepsTheInvariant`. -/
def Obligations.PushCompletes : Prop :=
  ∀ (r : Byte) (s : State) (h : r.toNat < 8), Memory.wf s.mem = true → s.sp ≠ 0#8 →
    ∃ t, exec (.push r) s = .next t ∧
      pushAddr s = (s.sp.toNat : Int) - 1 ∧
      byteAt t (pushAddr s).toNat = s.regs[r.toNat]'h ∧
      (∀ a : Nat, a ≠ (pushAddr s).toNat → byteAt t a = byteAt s a) ∧
      t.sp.toNat = s.sp.toNat - 1 ∧ t.pc = s.pc + 2#9 ∧
      t.regs = s.regs ∧ t.flags = s.flags ∧ t.run = s.run ∧ t.fault = s.fault ∧ t.out = s.out

/-- O31. POP completes for every valid register when `sp` is below 255; memory is unchanged (43_stack.md R141). -/
def Obligations.PopCompletes : Prop :=
  ∀ (r : Byte) (s : State) (h : r.toNat < 8), s.sp ≠ 255#8 →
    exec (.pop r) s = .next
      { s with regs := s.regs.set r.toNat (byteAt s s.sp.toNat) h, sp := s.sp + 1#8, pc := s.pc + 2#9 }

/-- O32. CALL completes for every valid register when `sp` is above 0 and the return address is a byte: it stores that
address at the push address and jumps; no register changes (44_control_flow.md R150). The canonical form of memory is
the invariant of `StepKeepsTheInvariant`. -/
def Obligations.CallCompletes : Prop :=
  ∀ (r : Byte) (s : State) (h : r.toNat < 8), Memory.wf s.mem = true → s.sp ≠ 0#8 → s.pc.toNat + 2 ≤ 255 →
    ∃ t, exec (.call r) s = .next t ∧
      pushAddr s = (s.sp.toNat : Int) - 1 ∧
      (byteAt t (pushAddr s).toNat).toNat = s.pc.toNat + 2 ∧
      (∀ a : Nat, a ≠ (pushAddr s).toNat → byteAt t a = byteAt s a) ∧
      t.sp.toNat = s.sp.toNat - 1 ∧ t.pc.toNat = (s.regs[r.toNat]'h).toNat ∧
      t.regs = s.regs ∧ t.flags = s.flags ∧ t.run = s.run ∧ t.fault = s.fault ∧ t.out = s.out

/-- O33. RET completes when `sp` is below 255: `pc` receives the byte on top of the stack, memory and registers are
unchanged (44_control_flow.md R151). -/
def Obligations.RetCompletes : Prop :=
  ∀ s : State, s.sp ≠ 255#8 →
    exec .ret s = .next { s with pc := (byteAt s s.sp.toNat).setWidth 9, sp := s.sp + 1#8 }

/-- O34. JMP completes for every valid register, and nothing but `pc` changes (44_control_flow.md R152). -/
def Obligations.JmpCompletes : Prop :=
  ∀ (r : Byte) (s : State) (h : r.toNat < 8),
    exec (.jmp r) s = .next { s with pc := (s.regs[r.toNat]'h).setWidth 9 }

/-- O35. JEQ and JNE complete for every valid register, taken or not, and nothing but `pc` changes; JNE is taken exactly
when JEQ is not (44_control_flow.md R153, R154). -/
def Obligations.JeqAndJneComplete : Prop :=
  ∀ (r : Byte) (s : State) (h : r.toNat < 8),
    exec (.jeq r) s = .next
      { s with pc := if s.flags.equal = true then (s.regs[r.toNat]'h).setWidth 9 else s.pc + 2#9 } ∧
    exec (.jne r) s = .next
      { s with pc := if s.flags.equal = true then s.pc + 2#9 else (s.regs[r.toNat]'h).setWidth 9 }

/-! ### Faults -/

/-- O36. 40_engine_cycle.md R105, 10_state.md R24: an instruction with a register operand of 8 or more takes
InvalidRegister with the first such operand, and has no other effect, whether or not it would use the register (the
last is 92_eei_decisions.md D7, log entry 2). -/
def Obligations.InvalidRegisterOperandsFault : Prop :=
  ∀ (i : Instr) (s : State), WellFormed i = false →
    ∃ o, i.regOperands.find? (fun x => decide (8 ≤ x.toNat)) = some o ∧
      exec i s = .next (faulted s .invalidRegister (o.toNat : Int))

/-- O37. 10_state.md R29: `sp` leaves 0..255 by no instruction; a push at 0 and a pop at 255 fault and change nothing
else. The fault of the pop is 92_eei_decisions.md D3 (log entry 2). -/
def Obligations.StackRangeFaults : Prop :=
  ∀ (r : Byte) (s : State), r.toNat < 8 →
    (s.sp = 0#8 →
      exec (.push r) s = .next (faulted s .outOfBounds (-1)) ∧ exec (.call r) s = .next (faulted s .outOfBounds (-1))) ∧
    (s.sp = 255#8 →
      exec (.pop r) s = .next (faulted s .outOfBounds 256) ∧ exec .ret s = .next (faulted s .outOfBounds 256))

/-- O38. 44_control_flow.md R150: CALL with room on the stack whose return address is no byte faults with that address
and pushes nothing (92_eei_decisions.md D4, log entry 2). -/
def Obligations.CallFaultsWhereTheReturnAddressIsNoByte : Prop :=
  ∀ (r : Byte) (s : State), r.toNat < 8 → s.sp ≠ 0#8 → 255 < s.pc.toNat + 2 →
    exec (.call r) s = .next (faulted s .outOfBounds ((s.pc.toNat : Int) + 2))

/-- O39. 60_exceptions.md R198 and R204, over all instructions at once: a step of a running core faults exactly when the
fixed order of conditions names a fault, and then with that cause and information. The order is 92_eei_decisions.md
D6; D1, D3, D4 and D7 enter too (log entries 1, 2). What a step reports where `pc` is 257 to 511, a value no run reaches,
is the model's choice (log entry 5). -/
def Obligations.StepReportsTheFirstFault : Prop :=
  ∀ s : State, s.run = .running →
    match firstFault s with
    | some (c, info) => step s = .next (faulted s c info)
    | none => ∃ t, step s = .next t ∧ t.run ≠ .faulted

/-- O40. 60_exceptions.md R196: a step that faults changes `run` and the fault record, which holds the address of the
faulting instruction, and nothing else; then the engine stops. -/
def Obligations.FaultEntryChangesOnlyRunAndRecord : Prop :=
  ∀ s t : State, s.run = .running → step s = .next t → t.run = .faulted →
    (∃ (c : Cause) (info : Int), t = faulted s c info) ∧ step t = .next t

/-- O41. 10_state.md R33, 41_data_output_halt.md R122: only HLT takes a running core to HALTED. -/
def Obligations.OnlyHltHalts : Prop :=
  ∀ s t : State, s.run = .running → step s = .next t → t.run = .halted → startsWith s 0x01#8

/-! ### Rules of the whole machine -/

/-- O42. 10_state.md R30: no instruction but CMP writes a flag, whether it completes or faults. -/
def Obligations.OnlyCmpWritesFlags : Prop :=
  ∀ (i : Instr) (s t : State), exec i s = .next t → (∀ a b, i ≠ .cmp a b) → t.flags = s.flags

/-- O43. 10_state.md R30: Less-Than and Greater-Than are read by no instruction. Two states that differ only in them
step to states that differ only in them. -/
def Obligations.LessAndGreaterAreNeverRead : Prop :=
  ∀ (s t : State) (l g : Bool), step s = .next t →
    ∃ l' g', step { s with flags := { s.flags with lessThan := l, greaterThan := g } } =
      .next { t with flags := { t.flags with lessThan := l', greaterThan := g' } }

/-- O44. 10_state.md R35: `out` is empty after reset, a step appends one byte exactly when a PRN completes, the value of
its register, nothing else changes `out`, and no step depends on it. -/
def Obligations.OutputGrowsByPrnAloneAndIsNeverRead : Prop :=
  State.reset.out = [] ∧
  ∀ (s t : State) (o : List Byte), step s = .next t →
    ∃ e : List Byte, t.out = s.out ++ e ∧ step { s with out := o } = .next { t with out := o ++ e } ∧
      e.length ≤ 1 ∧ (e.length = 1 ↔ startsWith s 0x47#8 ∧ t.run = .running) ∧
      (∀ h : (o1 s).toNat < 8, startsWith s 0x47#8 → t.run = .running → e = [s.regs[(o1 s).toNat]'h])

/-- O45. 20_memory.md R54: memory is written by PUSH and CALL alone; POP and RET leave the cell they read as it was. -/
def Obligations.OnlyPushAndCallWriteMemory : Prop :=
  ∀ (i : Instr) (s t : State), exec i s = .next t → (∀ r, i ≠ .push r) → (∀ r, i ≠ .call r) → t.mem = s.mem

/-- O46. 10_state.md R28, R22: `sp` is moved by PUSH, POP, CALL and RET alone. No other instruction moves it, LDI, ADD and
MUL of register 7 included. -/
def Obligations.OnlyStackInstructionsMoveSp : Prop :=
  ∀ (i : Instr) (s t : State), exec i s = .next t →
    (∀ r, i ≠ .push r) → (∀ r, i ≠ .pop r) → (∀ r, i ≠ .call r) → i ≠ .ret → t.sp = s.sp

/-- O47. 10_state.md R23: no instruction writes a register it does not name as its destination. -/
def Obligations.OnlyTheNamedDestinationChanges : Prop :=
  ∀ (i : Instr) (s t : State) (r : Fin 8), exec i s = .next t →
    destination i ≠ some (BitVec.ofNat 8 r.val) → t.regs[r] = s.regs[r]

/-- O48. 43_stack.md R142: `PUSH Ra` then `POP Rb` copies register `a` into `b` and restores `sp`; with `a = b` the
registers are as before. The canonical form of memory is the invariant of `StepKeepsTheInvariant`. -/
def Obligations.PushThenPopCopiesARegister : Prop :=
  ∀ (a b : Byte) (s : State) (ha : a.toNat < 8) (hb : b.toNat < 8), Memory.wf s.mem = true → s.sp ≠ 0#8 →
    ∃ t u, exec (.push a) s = .next t ∧ exec (.pop b) t = .next u ∧
      u.regs = s.regs.set b.toNat (s.regs[a.toNat]'ha) hb ∧ u.sp = s.sp ∧
      byteAt u (s.sp.toNat - 1) = s.regs[a.toNat]'ha ∧ (a = b → u.regs = s.regs)

/-- O49. 44_control_flow.md R151: after CALL, a RET in any later state that has the same `sp` and the same byte on top
returns to the instruction after the CALL and restores `sp`. -/
def Obligations.RetReturnsBehindTheCall : Prop :=
  ∀ (r : Byte) (s t u : State), r.toNat < 8 → Memory.wf s.mem = true → s.sp ≠ 0#8 → s.pc.toNat + 2 ≤ 255 →
    exec (.call r) s = .next t → u.sp = t.sp → byteAt u u.sp.toNat = byteAt t t.sp.toNat →
    ∃ v, exec .ret u = .next v ∧ v.pc.toNat = s.pc.toNat + 2 ∧ v.sp = s.sp

/-- O50. 42_alu.md R134: after a CMP exactly one flag is set. -/
def Obligations.CmpSetsExactlyOneFlag : Prop :=
  ∀ (a b : Byte) (s t : State), a.toNat < 8 → b.toNat < 8 → exec (.cmp a b) s = .next t →
    [t.flags.equal, t.flags.lessThan, t.flags.greaterThan].count true = 1

/-! ### Memory -/

/-- O51. 00_scope.md R9: the two memory primitives at every integer address. `MemRead` changes nothing, since it answers
no state; `MemWrite` sets one cell and changes nothing else. The canonical form of memory is the invariant of
`StepKeepsTheInvariant`. -/
def Obligations.MemoryPrimitivesAreBoundsChecked : Prop :=
  ∀ (s : State) (a : Int) (v : Byte), Memory.wf s.mem = true →
    (0 ≤ a ∧ a ≤ 255 →
      memRead s a = .ok (byteAt s a.toNat) ∧
      ∃ t, memWrite s a v = .ok t ∧ byteAt t a.toNat = v ∧ (∀ b : Nat, b ≠ a.toNat → byteAt t b = byteAt s b) ∧
        { t with mem := s.mem } = s) ∧
    (¬ (0 ≤ a ∧ a ≤ 255) →
      memRead s a = .error { cause := .outOfBounds, info := a } ∧
      memWrite s a v = .error { cause := .outOfBounds, info := a })

/-- O52. 20_memory.md R50: a memory is 256 bytes and nothing more. Two memories in canonical form that hold the same
bytes are the same data. -/
def Obligations.CanonicalMemoryIsItsBytes : Prop :=
  ∀ m n : Memory, Memory.wf m = true → Memory.wf n = true →
    (∀ a : Nat, a < 256 → Memory.read m a = Memory.read n a) → m = n

/-! ### Reset, load, invariant -/

/-- O53. 10_state.md R39: the values reset leaves. -/
def Obligations.ResetLeavesTheStatedValues : Prop :=
  (∀ a : Nat, a < 256 → byteAt State.reset a = 0x00#8) ∧
  (∀ i : Fin 8, i.val ≤ 6 → State.reset.regs[i] = 0x00#8) ∧ State.reset.regs[7] = 0xF4#8 ∧
  State.reset.sp = 0xF4#8 ∧ State.reset.pc.toNat = 0 ∧
  State.reset.flags = { equal := false, lessThan := false, greaterThan := false } ∧
  State.reset.run = .running ∧ State.reset.fault = none ∧ State.reset.out = []

/-- O54. 45_host_interface.md R172: an image of at most 256 bytes is placed from address 0, nothing else changes, and a
longer one is a load error (the last is 92_eei_decisions.md D13, log entry 9). -/
def Obligations.LoadPlacesTheImage : Prop :=
  ∀ image : List Byte,
    (image.length ≤ 256 →
      ∃ t, boot image = .ok t ∧ { t with mem := State.reset.mem } = State.reset ∧ Memory.wf t.mem = true ∧
        ∀ a : Nat, a < 256 → byteAt t a = image.getD a 0x00#8) ∧
    (256 < image.length → boot image = .error .imageTooLong)

/-- O55. The state after reset meets the invariant (10_state.md R39). -/
def Obligations.ResetMeetsTheInvariant : Prop := State.reset.Inv

/-- O56. Every step keeps the invariant: memory stays canonical, `pc` in 0..256 (10_state.md R25, R27), no two flags are
set together (R30), and a fault record is there exactly in a faulted state, with one of the causes and values of
60_exceptions.md R192; UnsupportedOperation is never raised (42_alu.md R135). It rests on the spec's decisions D2 and
D8 for the width of `pc` and the form of the record (log entries 5, 6). -/
def Obligations.StepKeepsTheInvariant : Prop :=
  ∀ s t : State, s.Inv → step s = .next t → t.Inv

/-- O57. Every state of every run from every program image that loads meets the invariant, and the run is never stuck
(70_reset_and_hazards.md R232, R236). -/
def Obligations.EveryReachableStateMeetsTheInvariant : Prop :=
  (∀ (image : List Byte) (t : State), Reachable image t → t.Inv) ∧
  ∀ (image : List Byte) (n : Nat), image.length ≤ 256 → ∃ s t, boot image = .ok s ∧ Sys2Proof.core.run n s = .next t

/-! ### Status -/

/-- O58. 45_host_interface.md R177, R180: the status shows the run state, and the fault record exactly when faulted; the
exit code is 0 exactly on a normal halt, whatever the OPEN codes are (92_eei_decisions.md D8, D14; log entry 11). -/
def Obligations.StatusAndExitCodeFollowTheRunState : Prop :=
  ∀ (c : Config.ExitCodes) (s : State),
    (status s).1 = s.run ∧ (status s).2 = (if s.run = .faulted then s.fault else none) ∧
    (runExitCode c s = some 0 ↔ s.run = .halted) ∧ (runExitCode c s = none ↔ s.run = .running) ∧
    (s.run = .faulted → runExitCode c s = some c.runtime)

/-! ### The program text and the launch -/

/-- O59. 45_host_interface.md R171: a text of program lines is read as its bytes in file order; comments are stripped,
blank and comment-only lines are skipped, the first digit is bit 7. It holds for every leniency of the loader; that the
spaces after a literal are dropped is read from 95_test_vectors.md S2 (log entry 10). -/
def Obligations.ProgramTextsParseToTheirBytes : Prop :=
  ∀ (l : Config.TextLeniency) (lines : List SourceLine), (∀ x ∈ lines, SourceLine.ok x) →
    parseProgramText l (lines.flatMap SourceLine.text) = .ok (lines.filterMap (·.1))

/-- O60. 60_exceptions.md R202, 45_host_interface.md R171, R179: a text with a line that is no binary literal, wherever
it stands, does not start the core, and so do no argument, two arguments and a missing file; every such launch ends with an
exit code that is not zero. It holds for every leniency of the loader (log entry 10) and whatever the OPEN exit codes are
(92_eei_decisions.md D14, log entry 11). Which characters are white space is the model's choice (log entry 10), and so is that
the malformed line is reported where the text is too long as well (log entry 15). -/
def Obligations.MalformedTextsAreLoadErrors : Prop :=
  ∀ (l : Config.TextLeniency) (c : Config.ExitCodes),
    (∀ pre line post, startsLine pre → unreadable line → endsToken post →
      invoke l [some (pre ++ line ++ post)] = .error .malformedToken) ∧
    invoke l [] = .error .usage ∧ (∀ x y xs, invoke l (x :: y :: xs) = .error .usage) ∧
    invoke l [none] = .error .fileNotFound ∧
    ∀ e : LaunchError, launchExitCode c e ≠ 0
end

