-- ==== Sys2Proof/Laws/Decode.lean ====
section
/-! SUPPORT. The opcode table: every row is found by its byte and by no other. -/

namespace Sys2Proof

@[simp] theorem opcodeOfByte_opcodeByte (k : Opcode) : opcodeOfByte (opcodeByte k) = some k := by
  cases k <;> decide

/-- A byte is found in the table only as the opcode byte of the row found. -/
theorem opcodeByte_of_opcodeOfByte {b : Byte} {k : Opcode} (h : opcodeOfByte b = some k) : opcodeByte k = b := by
  have := List.find?_some h
  simpa using this

theorem opcodeOfByte_eq_some_iff (b : Byte) (k : Opcode) : opcodeOfByte b = some k ↔ opcodeByte k = b :=
  ⟨opcodeByte_of_opcodeOfByte, fun h => h ▸ opcodeOfByte_opcodeByte k⟩

@[simp] theorem opcodeOf_buildInstr (k : Opcode) (o1 o2 : Byte) : opcodeOf (buildInstr k o1 o2) = k := by
  cases k <;> rfl

/-- An instruction is the one its opcode and its operand bytes build. -/
theorem buildInstr_operandBytes (i : Instr) :
    buildInstr (opcodeOf i) ((operandBytes i)[0]?.getD 0) ((operandBytes i)[1]?.getD 0) = i := by
  cases i <;> rfl

theorem opcodeLength_cases (k : Opcode) : opcodeLength k = 1 ∨ opcodeLength k = 2 ∨ opcodeLength k = 3 := by
  cases k <;> decide

/-- What the decoder can answer: the four ways to fail, in order, and the instruction built from what it read. -/
theorem decodeFrom_ok {ε : Type} {read : Nat → Except ε Byte} {unknown : Byte → ε} {i : Instr}
    (h : decodeFrom read unknown = .ok i) :
    ∃ op k o1 o2, read 0 = .ok op ∧ opcodeOfByte op = some k ∧ readOperand1 read (opcodeLength k) = .ok o1 ∧
      readOperand2 read (opcodeLength k) = .ok o2 ∧ i = buildInstr k o1 o2 := by
  unfold decodeFrom at h
  split at h
  · cases h
  · split at h
    · cases h
    · split at h
      · cases h
      · split at h
        · cases h
        · cases h
          exact ⟨_, _, _, _, ‹_›, ‹_›, ‹_›, ‹_›, rfl⟩

theorem isRegIndex_iff (o : Byte) : isRegIndex o = true ↔ o.toNat < 8 := by simp [isRegIndex]

end Sys2Proof
end

