-- ==== Sys2Proof/Laws/Memory.lean ====
section
/-! SUPPORT. Memory: every operation keeps the canonical form, and a read after a write. -/

namespace Sys2Proof.Machine

/-- Every address of `m` is above `a`. -/
def Memory.above (a : Nat) (m : Memory) : Prop := ∀ c ∈ m, a < c.1

theorem wf_cons (c : Host.Cell) (m : Memory) :
    Memory.wf (c :: m) = true ↔
      (c.1 < 256 ∧ c.2 ≠ Memory.unlisted ∧ Memory.above c.1 m) ∧ Memory.wf m = true := by
  simp [Memory.wf, Memory.above, List.all_eq_true, and_assoc]

theorem wf_tail {c : Host.Cell} {m : Memory} (h : Memory.wf (c :: m) = true) : Memory.wf m = true :=
  ((wf_cons c m).1 h).2

/-- An address below every listed one reads as an unlisted cell. -/
theorem read_of_above {a : Nat} : ∀ {m : Memory}, Memory.above a m → Memory.read m a = Memory.unlisted
  | [], _ => rfl
  | c :: m, h => by
    have hc : a < c.1 := h c (by simp)
    have : Memory.read m a = Memory.unlisted := read_of_above fun d hd => h d (by simp [hd])
    simp [Memory.read, this]
    omega

theorem above_trans {a b : Nat} {m : Memory} (h : Memory.above b m) (hab : a ≤ b) : Memory.above a m :=
  fun c hc => Nat.lt_of_le_of_lt hab (h c hc)

theorem wf_listed {a : Nat} {v : Byte} {m : Memory} (ha : a < 256) (hm : Memory.wf m = true)
    (hab : Memory.above a m) : Memory.wf (Memory.listed a v m) = true := by
  unfold Memory.listed
  split
  · exact hm
  · exact (wf_cons _ _).2 ⟨⟨ha, ‹_›, hab⟩, hm⟩

theorem above_listed {a b : Nat} {v : Byte} {m : Memory} (hb : b < a) (hm : Memory.above b m) :
    Memory.above b (Memory.listed a v m) := by
  unfold Memory.listed
  split
  · exact hm
  · intro c hc
    rcases List.mem_cons.1 hc with rfl | hc
    · exact hb
    · exact hm c hc

theorem above_write {a b : Nat} {v : Byte} (hb : b < a) :
    ∀ {m : Memory}, Memory.above b m → Memory.above b (Memory.write m a v)
  | [], h => above_listed hb h
  | c :: m, h => by
    have htail : Memory.above b m := fun d hd => h d (by simp [hd])
    unfold Memory.write
    split
    · exact above_listed hb h
    · split
      · exact above_listed hb htail
      · intro d hd
        rcases List.mem_cons.1 hd with rfl | hd
        · exact h _ (by simp)
        · exact above_write hb htail d hd

/-- A write inside memory keeps the canonical form. -/
theorem wf_write {a : Nat} {v : Byte} (ha : a < 256) :
    ∀ {m : Memory}, Memory.wf m = true → Memory.wf (Memory.write m a v) = true
  | [], h => wf_listed ha h (by intro c hc; cases hc)
  | c :: m, h => by
    obtain ⟨⟨hc, hv, hab⟩, hm⟩ := (wf_cons c m).1 h
    unfold Memory.write
    split
    · refine wf_listed ha h ?_
      intro d hd
      rcases List.mem_cons.1 hd with rfl | hd
      · assumption
      · exact Nat.lt_trans ‹_› (hab d hd)
    · split
      · subst_vars
        exact wf_listed ha hm hab
      · exact (wf_cons _ _).2 ⟨⟨hc, hv, above_write (by omega) hab⟩, wf_write ha hm⟩

theorem read_listed {a b : Nat} {v : Byte} {m : Memory} (hab : Memory.above a m) :
    Memory.read (Memory.listed a v m) b = if a = b then v else Memory.read m b := by
  unfold Memory.listed
  split
  · split
    · subst_vars
      exact read_of_above hab
    · rfl
  · simp [Memory.read]

/-- A read after a write: the byte written, and every other cell as before. -/
theorem read_write {a b : Nat} {v : Byte} :
    ∀ {m : Memory}, Memory.wf m = true →
      Memory.read (Memory.write m a v) b = if a = b then v else Memory.read m b
  | [], _ => read_listed (by intro c hc; cases hc)
  | c :: m, h => by
    obtain ⟨⟨_, _, hab⟩, hm⟩ := (wf_cons c m).1 h
    unfold Memory.write
    split
    · refine read_listed ?_
      intro d hd
      rcases List.mem_cons.1 hd with rfl | hd
      · assumption
      · exact Nat.lt_trans ‹_› (hab d hd)
    · split
      · rename_i hac
        subst hac
        rw [read_listed hab]
        simp only [Memory.read]
        split <;> rfl
      · simp only [Memory.read, read_write hm]
        split <;> split <;> first | rfl | omega

/-- Placing bytes keeps the canonical form. -/
theorem wf_placeBytes :
    ∀ (bs : List Byte) {m : Memory} (a : Nat), Memory.wf m = true → Memory.wf (placeBytes m a bs) = true
  | [], _, _, h => h
  | b :: bs, m, a, h => by
    refine wf_placeBytes bs (a + 1) ?_
    split
    · exact wf_write (by simpa [Config.memSize] using ‹_›) h
    · exact h

/-- Storing an instruction for the next fetch keeps the canonical form. -/
theorem wf_placeTableWord {s : State} (h : Memory.wf s.mem = true) (nbits w : Nat) :
    Memory.wf (placeTableWord s nbits w).mem = true :=
  wf_placeBytes _ _ h

/-- Loading an image keeps the canonical form. -/
theorem wf_loadImage {s t : State} {image : List Byte} (h : Memory.wf s.mem = true)
    (hl : loadImage s image = .ok t) : Memory.wf t.mem = true := by
  unfold loadImage at hl
  split at hl
  · cases hl
    exact wf_placeBytes _ _ h
  · cases hl

theorem reset_mem_wf : Memory.wf State.reset.mem = true := rfl

/-- What placing bytes leaves in each cell. -/
theorem read_placeBytes :
    ∀ (bs : List Byte) {m : Memory} (a b : Nat), Memory.wf m = true →
      Memory.read (placeBytes m a bs) b =
        if a ≤ b ∧ b < 256 then (bs[b - a]?).getD (Memory.read m b) else Memory.read m b
  | [], m, a, b, _ => by simp [placeBytes]
  | v :: bs, m, a, b, h => by
    unfold placeBytes
    by_cases ha : a < 256
    · rw [if_pos (by simpa [Config.memSize] using ha), read_placeBytes bs (a + 1) b (wf_write ha h), read_write h]
      rcases Nat.lt_trichotomy a b with hab | rfl | hab
      · obtain ⟨d, rfl⟩ : ∃ d, b = a + 1 + d := ⟨b - (a + 1), by omega⟩
        have h1 : a + 1 + d - (a + 1) = d := by omega
        have h2 : a + 1 + d - a = d + 1 := by omega
        have h3 : a ≠ a + 1 + d := by omega
        simp [h1, h2, h3, show a ≤ a + 1 + d by omega]
      · simp [ha]
      · have h1 : ¬ a + 1 ≤ b := by omega
        have h2 : ¬ a ≤ b := by omega
        have h3 : a ≠ b := by omega
        simp [h1, h2, h3]
    · rw [if_neg (by simpa [Config.memSize] using ha), read_placeBytes bs (a + 1) b h, if_neg (by omega), if_neg (by omega)]

end Sys2Proof.Machine
end

