-- ==== Sys2Proof/Laws/State.lean ====
section
/-! SUPPORT. What each update of the state does to each field, so that no proof unfolds a record update. -/

namespace Sys2Proof.Machine

@[simp] theorem takeFault_mem (r : Raise) (s : State) : (takeFault r s).mem = s.mem := rfl
@[simp] theorem takeFault_regs (r : Raise) (s : State) : (takeFault r s).regs = s.regs := rfl
@[simp] theorem takeFault_flags (r : Raise) (s : State) : (takeFault r s).flags = s.flags := rfl
@[simp] theorem takeFault_pc (r : Raise) (s : State) : (takeFault r s).pc = s.pc := rfl
@[simp] theorem takeFault_sp (r : Raise) (s : State) : (takeFault r s).sp = s.sp := rfl
@[simp] theorem takeFault_run (r : Raise) (s : State) : (takeFault r s).run = .faulted := rfl
@[simp] theorem takeFault_fault (r : Raise) (s : State) : (takeFault r s).fault = some { cause := r.cause, info := r.info, addr := s.pc } := rfl
@[simp] theorem takeFault_out (r : Raise) (s : State) : (takeFault r s).out = s.out := rfl

@[simp] theorem setReg_mem (s : State) (i : RegIx) (v : Byte) : (setReg s i v).mem = s.mem := rfl
@[simp] theorem setReg_regs (s : State) (i : RegIx) (v : Byte) : (setReg s i v).regs = s.regs.set i.val v i.isLt := rfl
@[simp] theorem setReg_flags (s : State) (i : RegIx) (v : Byte) : (setReg s i v).flags = s.flags := rfl
@[simp] theorem setReg_pc (s : State) (i : RegIx) (v : Byte) : (setReg s i v).pc = s.pc := rfl
@[simp] theorem setReg_sp (s : State) (i : RegIx) (v : Byte) : (setReg s i v).sp = s.sp := rfl
@[simp] theorem setReg_run (s : State) (i : RegIx) (v : Byte) : (setReg s i v).run = s.run := rfl
@[simp] theorem setReg_fault (s : State) (i : RegIx) (v : Byte) : (setReg s i v).fault = s.fault := rfl
@[simp] theorem setReg_out (s : State) (i : RegIx) (v : Byte) : (setReg s i v).out = s.out := rfl

@[simp] theorem setPc_mem (s : State) (t : PcWord) : (setPc s t).mem = s.mem := rfl
@[simp] theorem setPc_regs (s : State) (t : PcWord) : (setPc s t).regs = s.regs := rfl
@[simp] theorem setPc_flags (s : State) (t : PcWord) : (setPc s t).flags = s.flags := rfl
@[simp] theorem setPc_pc (s : State) (t : PcWord) : (setPc s t).pc = t := rfl
@[simp] theorem setPc_sp (s : State) (t : PcWord) : (setPc s t).sp = s.sp := rfl
@[simp] theorem setPc_run (s : State) (t : PcWord) : (setPc s t).run = s.run := rfl
@[simp] theorem setPc_fault (s : State) (t : PcWord) : (setPc s t).fault = s.fault := rfl
@[simp] theorem setPc_out (s : State) (t : PcWord) : (setPc s t).out = s.out := rfl

@[simp] theorem advance_mem (s : State) (len : Nat) : (advance s len).mem = s.mem := rfl
@[simp] theorem advance_regs (s : State) (len : Nat) : (advance s len).regs = s.regs := rfl
@[simp] theorem advance_flags (s : State) (len : Nat) : (advance s len).flags = s.flags := rfl
@[simp] theorem advance_pc (s : State) (len : Nat) : (advance s len).pc = s.pc + BitVec.ofNat 9 len := rfl
@[simp] theorem advance_sp (s : State) (len : Nat) : (advance s len).sp = s.sp := rfl
@[simp] theorem advance_run (s : State) (len : Nat) : (advance s len).run = s.run := rfl
@[simp] theorem advance_fault (s : State) (len : Nat) : (advance s len).fault = s.fault := rfl
@[simp] theorem advance_out (s : State) (len : Nat) : (advance s len).out = s.out := rfl

@[simp] theorem setSp_mem (s : State) (v : Byte) : (setSp s v).mem = s.mem := rfl
@[simp] theorem setSp_regs (s : State) (v : Byte) : (setSp s v).regs = s.regs := rfl
@[simp] theorem setSp_flags (s : State) (v : Byte) : (setSp s v).flags = s.flags := rfl
@[simp] theorem setSp_pc (s : State) (v : Byte) : (setSp s v).pc = s.pc := rfl
@[simp] theorem setSp_sp (s : State) (v : Byte) : (setSp s v).sp = v := rfl
@[simp] theorem setSp_run (s : State) (v : Byte) : (setSp s v).run = s.run := rfl
@[simp] theorem setSp_fault (s : State) (v : Byte) : (setSp s v).fault = s.fault := rfl
@[simp] theorem setSp_out (s : State) (v : Byte) : (setSp s v).out = s.out := rfl

@[simp] theorem dropTop_mem (s : State) : (dropTop s).mem = s.mem := rfl
@[simp] theorem dropTop_regs (s : State) : (dropTop s).regs = s.regs := rfl
@[simp] theorem dropTop_flags (s : State) : (dropTop s).flags = s.flags := rfl
@[simp] theorem dropTop_pc (s : State) : (dropTop s).pc = s.pc := rfl
@[simp] theorem dropTop_sp (s : State) : (dropTop s).sp = s.sp + 1#8 := rfl
@[simp] theorem dropTop_run (s : State) : (dropTop s).run = s.run := rfl
@[simp] theorem dropTop_fault (s : State) : (dropTop s).fault = s.fault := rfl
@[simp] theorem dropTop_out (s : State) : (dropTop s).out = s.out := rfl

@[simp] theorem setFlags_mem (s : State) (f : Flags) : (setFlags s f).mem = s.mem := rfl
@[simp] theorem setFlags_regs (s : State) (f : Flags) : (setFlags s f).regs = s.regs := rfl
@[simp] theorem setFlags_flags (s : State) (f : Flags) : (setFlags s f).flags = f := rfl
@[simp] theorem setFlags_pc (s : State) (f : Flags) : (setFlags s f).pc = s.pc := rfl
@[simp] theorem setFlags_sp (s : State) (f : Flags) : (setFlags s f).sp = s.sp := rfl
@[simp] theorem setFlags_run (s : State) (f : Flags) : (setFlags s f).run = s.run := rfl
@[simp] theorem setFlags_fault (s : State) (f : Flags) : (setFlags s f).fault = s.fault := rfl
@[simp] theorem setFlags_out (s : State) (f : Flags) : (setFlags s f).out = s.out := rfl

@[simp] theorem emit_mem (s : State) (v : Byte) : (emit s v).mem = s.mem := rfl
@[simp] theorem emit_regs (s : State) (v : Byte) : (emit s v).regs = s.regs := rfl
@[simp] theorem emit_flags (s : State) (v : Byte) : (emit s v).flags = s.flags := rfl
@[simp] theorem emit_pc (s : State) (v : Byte) : (emit s v).pc = s.pc := rfl
@[simp] theorem emit_sp (s : State) (v : Byte) : (emit s v).sp = s.sp := rfl
@[simp] theorem emit_run (s : State) (v : Byte) : (emit s v).run = s.run := rfl
@[simp] theorem emit_fault (s : State) (v : Byte) : (emit s v).fault = s.fault := rfl
@[simp] theorem emit_out (s : State) (v : Byte) : (emit s v).out = s.out ++ [v] := rfl

@[simp] theorem halt_mem (s : State) : (halt s).mem = s.mem := rfl
@[simp] theorem halt_regs (s : State) : (halt s).regs = s.regs := rfl
@[simp] theorem halt_flags (s : State) : (halt s).flags = s.flags := rfl
@[simp] theorem halt_pc (s : State) : (halt s).pc = s.pc := rfl
@[simp] theorem halt_sp (s : State) : (halt s).sp = s.sp := rfl
@[simp] theorem halt_run (s : State) : (halt s).run = .halted := rfl
@[simp] theorem halt_fault (s : State) : (halt s).fault = s.fault := rfl
@[simp] theorem halt_out (s : State) : (halt s).out = s.out := rfl

@[simp] theorem jumpTo_mem (s : State) (r : RegIx) : (jumpTo s r).mem = s.mem := rfl
@[simp] theorem jumpTo_regs (s : State) (r : RegIx) : (jumpTo s r).regs = s.regs := rfl
@[simp] theorem jumpTo_flags (s : State) (r : RegIx) : (jumpTo s r).flags = s.flags := rfl
@[simp] theorem jumpTo_pc (s : State) (r : RegIx) : (jumpTo s r).pc = targetOf (getReg s r) := rfl
@[simp] theorem jumpTo_sp (s : State) (r : RegIx) : (jumpTo s r).sp = s.sp := rfl
@[simp] theorem jumpTo_run (s : State) (r : RegIx) : (jumpTo s r).run = s.run := rfl
@[simp] theorem jumpTo_fault (s : State) (r : RegIx) : (jumpTo s r).fault = s.fault := rfl
@[simp] theorem jumpTo_out (s : State) (r : RegIx) : (jumpTo s r).out = s.out := rfl

/-- A register write is read back, and no other register changes. -/
theorem getReg_setReg (s : State) (i j : RegIx) (v : Byte) :
    getReg (setReg s i v) j = if i = j then v else getReg s j := by
  simp only [getReg, setReg, Fin.getElem_fin, Vector.getElem_set, Fin.ext_iff]

@[simp] theorem getReg_setReg_same (s : State) (i : RegIx) (v : Byte) : getReg (setReg s i v) i = v := by
  simp [getReg_setReg]

theorem getReg_setReg_other (s : State) (i j : RegIx) (v : Byte) (h : i ≠ j) :
    getReg (setReg s i v) j = getReg s j := by
  simp [getReg_setReg, h]

/-- What `byteAt` reads depends on memory alone. -/
theorem byteAt_congr (s t : State) (h : s.mem = t.mem) (a : Nat) : byteAt s a = byteAt t a := by
  simp [byteAt, h]

end Sys2Proof.Machine
end

