-- ==== Sys2Proof/Laws/Ops.lean ====
section
/-! SUPPORT. One lemma for each shared operation that says what it can do. -/

namespace Sys2Proof.Machine

@[simp] theorem attempt_ok {α : Type} (s : State) (v : α) (k : α → Answer) : attempt s (.ok v) k = k v := rfl

@[simp] theorem attempt_error {α : Type} (s : State) (r : Raise) (k : α → Answer) :
    attempt s (.error r) k = .next (takeFault r s) := rfl

/-- Going on with a check either takes the fault it raises or is the continuation on its value. -/
theorem attempt_cases {α : Type} (s : State) (x : Except Raise α) (k : α → Answer) :
    (∃ r, x = .error r ∧ attempt s x k = .next (takeFault r s)) ∨ (∃ v, x = .ok v ∧ attempt s x k = k v) := by
  cases x with
  | error r => exact .inl ⟨r, rfl, rfl⟩
  | ok v => exact .inr ⟨v, rfl, rfl⟩

theorem inMemory_iff (a : Int) : inMemory a = true ↔ 0 ≤ a ∧ a < 256 := by
  simp [inMemory]

theorem memRead_inside (s : State) {a : Int} (h0 : 0 ≤ a) (h1 : a < 256) : memRead s a = .ok (byteAt s a.toNat) := by
  simp [memRead, (inMemory_iff a).2 ⟨h0, h1⟩]

theorem memRead_outside (s : State) {a : Int} (h : a < 0 ∨ 256 ≤ a) : memRead s a = .error (raiseOutOfBounds a) := by
  have : inMemory a ≠ true := fun hc => by have := (inMemory_iff a).1 hc; omega
  simp [memRead, this]

theorem memWrite_inside (s : State) (v : Byte) {a : Int} (h0 : 0 ≤ a) (h1 : a < 256) :
    memWrite s a v = .ok { s with mem := Memory.write s.mem a.toNat v } := by
  simp [memWrite, (inMemory_iff a).2 ⟨h0, h1⟩]

theorem memWrite_outside (s : State) (v : Byte) {a : Int} (h : a < 0 ∨ 256 ≤ a) :
    memWrite s a v = .error (raiseOutOfBounds a) := by
  have : inMemory a ≠ true := fun hc => by have := (inMemory_iff a).1 hc; omega
  simp [memWrite, this]

theorem pushRoom_ok {s : State} (h : s.sp ≠ 0#8) : pushRoom s = .ok () := by simp [pushRoom, h]

theorem pushRoom_error {s : State} (h : s.sp = 0#8) : pushRoom s = .error (raiseOutOfBounds (-1)) := by
  simp [pushRoom, h]

theorem popRoom_ok {s : State} (h : s.sp ≠ 255#8) : popRoom s = .ok () := by simp [popRoom, h]

theorem popRoom_error {s : State} (h : s.sp = 255#8) : popRoom s = .error (raiseOutOfBounds 256) := by
  simp [popRoom, h]

theorem sp_ne_zero_iff (b : Byte) : b ≠ 0#8 ↔ 0 < b.toNat := by
  rw [Nat.pos_iff_ne_zero, Ne, Ne, ← BitVec.toNat_inj]
  simp

theorem pushAddr_toNat {s : State} (h : s.sp ≠ 0#8) : pushAddr s = ((s.sp.toNat - 1 : Nat) : Int) := by
  have := (sp_ne_zero_iff s.sp).1 h
  unfold pushAddr
  omega

/-- A push with room writes one cell and moves `sp` down by one. -/
theorem pushByte_ok {s : State} (h : s.sp ≠ 0#8) (v : Byte) :
    pushByte s v = .ok { s with mem := Memory.write s.mem (s.sp.toNat - 1) v, sp := s.sp - 1#8 } := by
  have hlt := s.sp.isLt
  have h1 : memWrite s (pushAddr s) v = .ok { s with mem := Memory.write s.mem (s.sp.toNat - 1) v } := by
    rw [pushAddr_toNat h, memWrite_inside s v (by omega) (by omega), Int.toNat_natCast]
  simp [pushByte, h1, setSp]

/-- The top of the stack is always inside memory. -/
theorem topByte_ok (s : State) : topByte s = .ok (byteAt s s.sp.toNat) := by
  have hlt := s.sp.isLt
  rw [topByte, memRead_inside s (by omega) (by omega), Int.toNat_natCast]

theorem returnAddress_ok {s : State} (h : s.pc.toNat < 254) :
    returnAddress s = .ok (BitVec.ofNat 8 (s.pc.toNat + 2)) := by
  simp [returnAddress, show ¬ 255 < s.pc.toNat + 2 by omega]

theorem returnAddress_error {s : State} (h : 254 ≤ s.pc.toNat) :
    returnAddress s = .error (raiseOutOfBounds ((s.pc.toNat : Int) + 2)) := by
  simp [returnAddress, show 255 < s.pc.toNat + 2 by omega]

theorem regIndex_ok {o : Byte} (h : o.toNat < 8) : regIndex o = .ok ⟨o.toNat, h⟩ := by
  simp [regIndex, h]

theorem regIndex_error {o : Byte} (h : 8 ≤ o.toNat) : regIndex o = .error (raiseInvalidRegister o) := by
  simp [regIndex, h]

/-- A valid register operand: the instruction goes on with its register. -/
theorem withReg_ok (s : State) {o : Byte} (h : o.toNat < 8) (k : RegIx → Answer) :
    withReg s o k = k ⟨o.toNat, h⟩ := by
  simp [withReg, regIndex_ok h]

/-- An invalid register operand: the instruction takes `InvalidRegister` and has no effect. -/
theorem withReg_error (s : State) {o : Byte} (h : 8 ≤ o.toNat) (k : RegIx → Answer) :
    withReg s o k = .next (takeFault (raiseInvalidRegister o) s) := by
  simp [withReg, regIndex_error h]

theorem withRegs_ok (s : State) {o1 o2 : Byte} (h1 : o1.toNat < 8) (h2 : o2.toNat < 8) (k : RegIx → RegIx → Answer) :
    withRegs s o1 o2 k = k ⟨o1.toNat, h1⟩ ⟨o2.toNat, h2⟩ := by
  simp [withRegs, withReg_ok s h1, withReg_ok s h2]

/-- The first operand is checked before the second. -/
theorem withRegs_error1 (s : State) {o1 : Byte} (o2 : Byte) (h : 8 ≤ o1.toNat) (k : RegIx → RegIx → Answer) :
    withRegs s o1 o2 k = .next (takeFault (raiseInvalidRegister o1) s) := by
  simp [withRegs, withReg_error s h]

theorem withRegs_error2 (s : State) {o1 o2 : Byte} (h1 : o1.toNat < 8) (h2 : 8 ≤ o2.toNat) (k : RegIx → RegIx → Answer) :
    withRegs s o1 o2 k = .next (takeFault (raiseInvalidRegister o2) s) := by
  simp [withRegs, withReg_ok s h1, withReg_error s h2]

theorem aluAdd_toNat (a b : Byte) : (aluAdd a b).toNat = (a.toNat + b.toNat) % 256 := by
  simp [aluAdd]

theorem aluMultiply_toNat (a b : Byte) : (aluMultiply a b).toNat = a.toNat * b.toNat % 256 := by
  simp [aluMultiply]

/-- An ALU operation leaves everything but the registers and the flags alone. -/
theorem aluApply_frame (op : AluOp) (s : State) (a b : RegIx) :
    (aluApply op s a b).mem = s.mem ∧ (aluApply op s a b).pc = s.pc ∧ (aluApply op s a b).sp = s.sp ∧
      (aluApply op s a b).run = s.run ∧ (aluApply op s a b).fault = s.fault ∧ (aluApply op s a b).out = s.out := by
  cases op <;> simp [aluApply]

/-- With valid registers an ALU instruction applies its operation and advances by 3. -/
theorem execAlu_ok (op : AluOp) (s : State) {o1 o2 : Byte} (h1 : o1.toNat < 8) (h2 : o2.toNat < 8) :
    execAlu op o1 o2 s = .next (advance (aluApply op s ⟨o1.toNat, h1⟩ ⟨o2.toNat, h2⟩) 3) :=
  withRegs_ok s h1 h2 _

/-- With a valid register a conditional jump goes to it or past itself. -/
theorem execJumpIf_ok (taken : Bool) (s : State) {o : Byte} (h : o.toNat < 8) :
    execJumpIf taken o s = .next (if taken then jumpTo s ⟨o.toNat, h⟩ else advance s 2) :=
  withReg_ok s h _

/-- With an invalid register a conditional jump faults, taken or not. -/
theorem execJumpIf_error (taken : Bool) (s : State) {o : Byte} (h : 8 ≤ o.toNat) :
    execJumpIf taken o s = .next (takeFault (raiseInvalidRegister o) s) :=
  withReg_error s h _

end Sys2Proof.Machine
end

