-- ==== Sys2Proof/Laws/Engine.lean ====
section
/-! SUPPORT. What fetching and a step can do. -/

namespace Sys2Proof.Machine

theorem fetchByte_inside {s : State} {k : Nat} (h : s.pc.toNat + k < 256) :
    fetchByte s k = .ok (byteAt s (s.pc.toNat + k)) := by
  unfold fetchByte
  rw [memRead_inside s (by omega) (by omega)]
  congr 2

theorem fetchByte_outside {s : State} {k : Nat} (h : 256 ≤ s.pc.toNat + k) :
    fetchByte s k = .error (raiseOutOfBounds ((s.pc.toNat : Int) + (k : Int))) :=
  memRead_outside s (by omega)

/-- A byte that was fetched lay inside memory. -/
theorem fetchByte_ok {s : State} {k : Nat} {b : Byte} (h : fetchByte s k = .ok b) :
    s.pc.toNat + k < 256 ∧ b = byteAt s (s.pc.toNat + k) := by
  by_cases hk : s.pc.toNat + k < 256
  · rw [fetchByte_inside hk] at h
    cases h
    exact ⟨hk, rfl⟩
  · rw [fetchByte_outside (by omega)] at h
    cases h

/-- An instruction that was fetched lies inside memory, opcode byte to last operand byte. -/
theorem fetch_inside {s : State} {i : Instr} (h : fetch s = .ok i) :
    s.pc.toNat + instrLength i ≤ 256 ∧ byteAt s s.pc.toNat = opcodeByte (opcodeOf i) := by
  obtain ⟨op, k, o1, o2, h0, hk, h1, h2, rfl⟩ := decodeFrom_ok h
  obtain ⟨hlt, rfl⟩ := fetchByte_ok h0
  refine ⟨?_, by simpa using (opcodeByte_of_opcodeOfByte hk).symm⟩
  rw [instrLength, opcodeOf_buildInstr]
  rcases opcodeLength_cases k with hl | hl | hl
  · omega
  · have := (fetchByte_ok (s := s) (k := 1) (by simpa [readOperand1, hl] using h1)).1
    omega
  · have := (fetchByte_ok (s := s) (k := 2) (by simpa [readOperand2, hl] using h2)).1
    omega

theorem step_running {s : State} (h : s.run = .running) : step s = attempt s (fetch s) fun i => exec i s := by
  simp [step, h]

theorem step_stopped {s : State} (h : s.run ≠ .running) : step s = .next s := by
  unfold step
  split
  · contradiction
  · rfl
  · rfl

/-- A step of a running core takes the fault that fetching raises, or executes the instruction fetched. -/
theorem step_cases {s : State} (h : s.run = .running) :
    (∃ r, fetch s = .error r ∧ step s = .next (takeFault r s)) ∨ (∃ i, fetch s = .ok i ∧ step s = exec i s) := by
  rw [step_running h]
  exact attempt_cases s (fetch s) _

end Sys2Proof.Machine
end

