-- ==== Sys2Proof/Laws/PerInstr.lean ====
section
/-! SUPPORT. The shape of an encoding, one lemma per instruction: the opcode byte of the instruction's own row stands
first, the register operands follow as whole bytes, and the length is the one the opcode tells (30_encoding.md R80 to
R83). -/

namespace Sys2Proof.Laws.EncodingShape

/-- The opcode byte first, then the register operands unmasked, and the length the opcode tells. -/
def Statement (i : Instr) : Prop :=
  (encode i).head? = some (opcodeByte (opcodeOf i)) ∧ i.regOperands <+: (encode i).tail ∧
    (encode i).length = opcodeLength (opcodeOf i)

theorem ldi (r v : Byte) : Statement (.ldi r v) := ⟨rfl, ⟨[v], rfl⟩, rfl⟩
theorem prn (r : Byte) : Statement (.prn r) := ⟨rfl, ⟨[], rfl⟩, rfl⟩
theorem hlt : Statement .hlt := ⟨rfl, ⟨[], rfl⟩, rfl⟩
theorem mul (a b : Byte) : Statement (.mul a b) := ⟨rfl, ⟨[], rfl⟩, rfl⟩
theorem add (a b : Byte) : Statement (.add a b) := ⟨rfl, ⟨[], rfl⟩, rfl⟩
theorem push (r : Byte) : Statement (.push r) := ⟨rfl, ⟨[], rfl⟩, rfl⟩
theorem pop (r : Byte) : Statement (.pop r) := ⟨rfl, ⟨[], rfl⟩, rfl⟩
theorem call (r : Byte) : Statement (.call r) := ⟨rfl, ⟨[], rfl⟩, rfl⟩
theorem ret : Statement .ret := ⟨rfl, ⟨[], rfl⟩, rfl⟩
theorem cmp (a b : Byte) : Statement (.cmp a b) := ⟨rfl, ⟨[], rfl⟩, rfl⟩
theorem jmp (r : Byte) : Statement (.jmp r) := ⟨rfl, ⟨[], rfl⟩, rfl⟩
theorem jeq (r : Byte) : Statement (.jeq r) := ⟨rfl, ⟨[], rfl⟩, rfl⟩
theorem jne (r : Byte) : Statement (.jne r) := ⟨rfl, ⟨[], rfl⟩, rfl⟩

end Sys2Proof.Laws.EncodingShape
end

