-- ==== Sys2Proof/Laws/ProgramText.lean ====
section
/-! SUPPORT. What the operations of Machine/ProgramText.lean can do: how a text splits into lines, and what a line and a
list of lines can answer. They are cited instead of being unfolded. -/

namespace Sys2Proof.Laws

open Sys2Proof Sys2Proof.Machine

theorem isWhite_of_isBinaryDigit {c : Char} (h : isBinaryDigit c = true) : isWhite c = false := by
  simp only [isBinaryDigit, Bool.or_eq_true, beq_iff_eq] at h
  rcases h with rfl | rfl <;> decide

theorem isLineEnd_of_not_white {l : Config.TextLeniency} {c : Char} (h : isWhite c = false) : isLineEnd l c = false := by
  simp only [isLineEnd, h, Bool.false_and, Bool.or_false, beq_eq_false_iff_ne]
  rintro rfl
  revert h
  decide

theorem splitLines_ne_nil (l : Config.TextLeniency) (t : List Char) : splitLines l t ≠ [] := by
  cases t with
  | nil => simp [splitLines]
  | cons c cs =>
    simp only [splitLines]
    split
    · simp
    · split <;> simp

/-- A line feed splits a text. -/
theorem splitLines_append_lf (l : Config.TextLeniency) (a b : List Char) :
    splitLines l (a ++ '\n' :: b) = splitLines l a ++ splitLines l b := by
  induction a with
  | nil => simp [splitLines, isLineEnd]
  | cons c cs ih =>
    simp only [List.cons_append, splitLines, ih]
    split
    · simp
    · obtain ⟨x, xs, h⟩ := List.exists_cons_of_ne_nil (splitLines_ne_nil l cs)
      simp [h]

/-- A text that no character ends is one line. -/
theorem splitLines_eq_singleton (l : Config.TextLeniency) (a : List Char) (h : ∀ c ∈ a, isLineEnd l c = false) :
    splitLines l a = [a] := by
  induction a with
  | nil => rfl
  | cons c cs ih => simp [splitLines, h c (by simp), ih fun c hc => h c (by simp [hc])]

/-- What `dropEnd` drops is an end of the line. -/
theorem dropEnd_append (p : Char → Bool) (x : List Char) : ∃ w, x = dropEnd p x ++ w ∧ ∀ c ∈ w, p c = true := by
  refine ⟨(x.reverse.takeWhile p).reverse, ?_, fun c hc => List.mem_takeWhile_imp (List.mem_reverse.1 hc)⟩
  rw [dropEnd, ← List.reverse_append, List.takeWhile_append_dropWhile, List.reverse_reverse]

theorem parseToken_cases (l : Config.TextLeniency) (t : List Char) :
    parseToken l t = .error .malformedToken ∨
      (t.all isBinaryDigit = true ∧ (t.length = 8 ∨ binaryValue t < 256 ∧ l.digits t.length = true) ∧
        parseToken l t = .ok (BitVec.ofNat 8 (binaryValue t))) := by
  simp only [parseToken]
  split
  · rename_i h
    simp only [Bool.and_eq_true, Bool.or_eq_true, decide_eq_true_eq] at h
    exact .inr ⟨h.1, h.2, rfl⟩
  · exact .inl rfl

/-- A line that is not read is a malformed token. -/
theorem parseLine_error {l : Config.TextLeniency} {x : List Char} {e : LaunchError} (h : parseLine l x = .error e) :
    e = .malformedToken := by
  simp only [parseLine] at h
  split at h
  · cases h
  · split at h
    · rcases parseToken_cases l (tokenOf (stripSpaces (stripComment x))) with ht | ⟨-, -, ht⟩ <;>
        rw [ht] at h <;> cases h
      rfl
    · cases h
      rfl

/-- A line that is read is white space alone, or one token with white space around it. -/
theorem parseLine_ok {l : Config.TextLeniency} {x : List Char} {b : Option Byte} (h : parseLine l x = .ok b) :
    (b = none ∧ ∀ c ∈ stripComment x, isWhite c = true) ∨
    ∃ u t w v, b = some v ∧ stripComment x = u ++ t ++ w ∧ (∀ c ∈ u, isWhite c = true) ∧
      (∀ c ∈ w, isWhite c = true) ∧ (∀ c ∈ t, isBinaryDigit c = true) ∧ parseToken l t = .ok v := by
  obtain ⟨w, hw, hall⟩ := dropEnd_append (fun c => c == ' ') (stripComment x)
  change stripComment x = stripSpaces (stripComment x) ++ w at hw
  have hws : ∀ c ∈ w, isWhite c = true := by
    intro c hc
    rw [beq_iff_eq.1 (hall c hc)]
    decide
  simp only [parseLine] at h
  split at h
  · rename_i hb
    refine .inl ⟨by cases h; rfl, fun c hc => ?_⟩
    rw [hw, List.mem_append] at hc
    exact hc.elim (List.all_eq_true.1 hb c) (hws c)
  · split at h
    · obtain ⟨w2, hw2, hall2⟩ := dropEnd_append isWhite ((stripSpaces (stripComment x)).dropWhile isWhite)
      rcases parseToken_cases l (tokenOf (stripSpaces (stripComment x))) with ht | ⟨hd, -, ht⟩ <;>
        rw [ht] at h <;> cases h
      refine .inr ⟨(stripSpaces (stripComment x)).takeWhile isWhite, _, w2 ++ w, _, rfl, ?_,
        fun c hc => List.mem_takeWhile_imp hc, fun c hc => ?_, List.all_eq_true.1 hd, ht⟩
      · conv_lhs => rw [hw]
        rw [tokenOf, ← List.append_assoc, List.append_assoc _ _ w2, ← hw2, List.takeWhile_append_dropWhile]
      · exact (List.mem_append.1 hc).elim (hall2 c) (hws c)
    · cases h

/-- One malformed line makes the list malformed. -/
theorem parseLines_error {l : Config.TextLeniency} {ls : List (List Char)} {x : List Char} (hx : x ∈ ls)
    (h : parseLine l x = .error .malformedToken) : parseLines l ls = .error .malformedToken := by
  induction ls with
  | nil => cases hx
  | cons y ys ih =>
    simp only [parseLines]
    rcases List.mem_cons.1 hx with rfl | hm
    · simp [h]
    · cases hp : parseLine l y with
      | error e => simp [parseLine_error hp]
      | ok b => simp [ih hm]

end Sys2Proof.Laws
end

