-- ==== Sys2Proof/Tests/Slice0.lean ====
section
/-! SUPPORT. Tests whose expected results are the spec's own (95_test_vectors.md; the vector is named at each), and for
every statement with hypotheses a witness that meets them all, at the boundary values of its clauses. -/

namespace Sys2Proof.Tests

open Sys2Proof Sys2Proof.Machine Sys2Proof.Statements

/-- The reset state with bytes placed from address `a` upward and `pc` there. -/
def codeAt (a : Nat) (bytes : List Byte) : State :=
  { State.reset with mem := placeBytes [] a bytes, pc := BitVec.ofNat 9 a }

/-- A state with register `i` set. -/
def withX (s : State) (i : RegIx) (v : Byte) : State := setReg s i v

/-- A state with `sp` set. -/
def withSp (s : State) (v : Byte) : State := setSp s v

/-- A state with one memory cell set. -/
def withM (s : State) (a : Nat) (v : Byte) : State := { s with mem := Memory.write s.mem a v }

/-- A state with the Equal flag alone set. -/
def withE (s : State) : State := { s with flags := { equal := true, lessThan := false, greaterThan := false } }

/-- A state with the Less-Than flag alone set. -/
def withL (s : State) : State := { s with flags := { equal := false, lessThan := true, greaterThan := false } }

/-- A state with the Greater-Than flag alone set. -/
def withG (s : State) : State := { s with flags := { equal := false, lessThan := false, greaterThan := true } }

/-- Fields of the next state, if there is one. -/
def after {α : Type} (x : Answer) (f : State → α) : Option α :=
  match x with
  | .next t => some (f t)
  | .fault _ => none
  | .refused _ => none

theorem next_of_after {x : Answer} {t : State} (h : after x id = some t) : x = .next t := by
  cases x with
  | next s => exact congrArg _ (Option.some.inj h)
  | fault r => cases h
  | refused r => cases h

/-- `run`, `pc` and the fault record of a state. -/
def stop (t : State) : RunState × Nat × Option FaultRecord := (t.run, t.pc.toNat, t.fault)

/-- What the spec writes `fault = Cause(info) at a`, in a faulted state whose `pc` is `a`. -/
def faultAt (c : Cause) (info : Int) (a : Nat) : RunState × Nat × Option FaultRecord :=
  (.faulted, a, some { cause := c, info := info, addr := BitVec.ofNat 9 a })

/-! ### Decoding: words written out from 30_encoding.md R81 and R84 -/

theorem test_decode_ldi : decode [0b10000010#8, 0b00000000#8, 0b00001000#8] = .ok (.ldi 0 8, []) := by decide
theorem test_decode_prn : decode [0b01000111#8, 0b00000111#8] = .ok (.prn 7, []) := by decide
theorem test_decode_hlt : decode [0b00000001#8] = .ok (.hlt, []) := by decide
theorem test_decode_mul : decode [0b10100010#8, 0b00000011#8, 0b00000101#8] = .ok (.mul 3 5, []) := by decide
theorem test_decode_add : decode [0b10100000#8, 0b00000111#8, 0b00000010#8] = .ok (.add 7 2, []) := by decide
theorem test_decode_push : decode [0b01000101#8, 0b00000110#8] = .ok (.push 6, []) := by decide
theorem test_decode_pop : decode [0b01000110#8, 0b00000001#8, 0b00000001#8] = .ok (.pop 1, [1]) := by decide
theorem test_decode_call : decode [0b01010000#8, 0b00000100#8] = .ok (.call 4, []) := by decide
theorem test_decode_ret : decode [0b00010001#8, 0b11111111#8] = .ok (.ret, [255]) := by decide
theorem test_decode_cmp : decode [0b10100111#8, 0b00000001#8, 0b00000000#8] = .ok (.cmp 1 0, []) := by decide
theorem test_decode_jmp : decode [0b01010100#8, 0b00000010#8] = .ok (.jmp 2, []) := by decide
theorem test_decode_jeq : decode [0b01010101#8, 0b11001000#8] = .ok (.jeq 200, []) := by decide
theorem test_decode_jne : decode [0b01010110#8, 0b00000011#8] = .ok (.jne 3, []) := by decide

/-- One bit away from LDI (V-ENG-5), the byte 0x00 (R87), and an instruction cut short. -/
theorem test_decode_rejects :
    decode [0x83, 0, 8] = .error (.unknownInstruction 0x83) ∧ decode [0x00] = .error (.unknownInstruction 0x00) ∧
      decode [0xA0, 0] = .error (.missingByte 2) ∧ decode [] = .error (.missingByte 0) := by decide

/-- The first table row as the host numbers it, its operands 1 and 2, and again with the operand bits left out. -/
theorem test_table_words :
    decodeTableWord 24 0x020182 = some (.ldi 1 2) ∧ decodeTableWord 8 0x82 = some (.ldi 0 0) ∧
      decodeTableWord 8 0x00 = none := by decide

/-- A placed word is what the next step runs, and nothing but memory is changed. -/
theorem test_withFetchWord :
    after (step (State.reset.withFetchWord 24 0x050382)) (fun t => (t.regs[3], t.pc.toNat)) = some (5, 3) ∧
      { State.reset.withFetchWord 24 0x050382 with mem := [] } = State.reset := by decide

/-! ### Well-formedness: an ill-formed term for the check, at each operand place -/

theorem test_wellFormed :
    WellFormed (.ldi 7 255) = true ∧ WellFormed (.ldi 8 0) = false ∧ WellFormed (.add 7 7) = true ∧
      WellFormed (.add 8 0) = false ∧ WellFormed (.add 0 8) = false ∧ WellFormed (.cmp 0 255) = false ∧
      WellFormed (.mul 9 0) = false ∧ WellFormed (.prn 8) = false ∧ WellFormed (.push 8) = false ∧
      WellFormed (.pop 8) = false ∧ WellFormed (.call 8) = false ∧ WellFormed (.jmp 8) = false ∧
      WellFormed (.jeq 8) = false ∧ WellFormed (.jne 200) = false ∧ WellFormed .hlt = true ∧ WellFormed .ret = true := by
  decide

/-! ### One step of each instruction -/

/-- V-LDI-2: register 7 is not the stack pointer. -/
theorem test_ldi_r7 : after (step (codeAt 0 [0x82, 7, 0])) (fun t => (t.regs[7], t.sp)) = some (0, 0xF4) := by decide
/-- V-LDI-6: the last place where LDI fits. -/
theorem test_ldi_top : after (step (codeAt 253 [0x82, 0, 7])) (fun t => (t.regs[0], t.pc.toNat)) = some (7, 256) := by
  decide
/-- V-PRN-2. -/
theorem test_prn_r7 : after (step (codeAt 0 [0x47, 7])) (fun t => (t.out, t.pc.toNat)) = some ([244], 2) := by decide
/-- V-PRN-3. -/
theorem test_prn_bad : after (step (codeAt 0 [0x47, 15])) stop = some (faultAt .invalidRegister 15 0) := by decide
/-- V-HLT-2. -/
theorem test_hlt_top : after (step (codeAt 255 [1])) stop = some (.halted, 256, none) := by decide
/-- V-ADD-4: the source is the destination. -/
theorem test_add_same : after (step (withX (codeAt 0 [0xA0, 2, 2]) 2 0x90)) (fun t => t.regs[2]) = some 0x20 := by decide
/-- V-ADD-8: the first of two bad operands is reported. -/
theorem test_add_bad : after (step (codeAt 0 [0xA0, 9, 8])) stop = some (faultAt .invalidRegister 9 0) := by decide
/-- V-MUL-8. -/
theorem test_mul_wraps :
    after (step (withX (withX (codeAt 0 [0xA2, 0, 1]) 0 0xC8) 1 3)) (fun t => (t.regs[0], t.regs[1])) = some (0x58, 3) := by
  decide
/-- V-MUL-9: the second operand would be at 256. -/
theorem test_mul_end : after (step (codeAt 254 [0xA2, 0])) stop = some (faultAt .outOfBounds 256 254) := by decide
/-- V-CMP-4: the comparison is unsigned. -/
theorem test_cmp_unsigned :
    after (step (withX (withX (codeAt 0 [0xA7, 0, 1]) 0 0xFF) 1 1)) (fun t => t.flags) = some (withG State.reset).flags := by
  decide
/-- V-CMP-6: an old Greater-Than is cleared. -/
theorem test_cmp_rewrites :
    after (step (withG (codeAt 0 [0xA7, 0, 1]))) (fun t => t.flags) = some (withE State.reset).flags := by decide
/-- V-STK-4: a PUSH that overwrites its own operand byte. -/
theorem test_push_self :
    after (step (withSp (withX (codeAt 0 [0x45, 0]) 0 0xAA) 2)) (fun t => (t.mem, t.sp, t.pc.toNat)) =
      some ([(0, 0x45), (1, 0xAA)], 1, 2) := by decide
/-- V-STK-3: no wrap to cell 255. -/
theorem test_push_bottom : after (step (withSp (codeAt 16 [0x45, 0]) 0)) stop = some (faultAt .outOfBounds (-1) 16) := by
  decide
/-- V-STK-11: POP R7 moves `sp` by one, independently; the cell keeps its byte (V-STK-6). -/
theorem test_pop_r7 :
    after (step (withSp (withM (codeAt 0 [0x46, 7]) 0xF3 0x33) 0xF3)) (fun t => (t.regs[7], t.sp, byteAt t 0xF3)) =
      some (0x33, 0xF4, 0x33) := by decide
/-- V-STK-9: the register is not written. -/
theorem test_pop_top :
    after (step (withSp (withX (withM (codeAt 0 [0x46, 0]) 0xFF 0x5A) 0 9) 0xFF)) (fun t => (t.regs[0], stop t)) =
      some (9, faultAt .outOfBounds 256 0) := by decide
/-- V-CTL-1. -/
theorem test_call :
    after (step (withX (codeAt 6 [0x50, 1]) 1 0x0C)) (fun t => (byteAt t 0xF3, t.sp, t.pc.toNat)) = some (8, 0xF3, 12) := by
  decide
/-- V-CTL-5: the range of the stack is checked before the return address. -/
theorem test_call_both : after (step (withSp (codeAt 254 [0x50, 0]) 0)) stop = some (faultAt .outOfBounds (-1) 254) := by
  decide
/-- V-CTL-2. -/
theorem test_ret :
    after (step (withSp (withM (codeAt 14 [0x11]) 0xF3 8) 0xF3)) (fun t => (t.sp, t.pc.toNat, byteAt t 0xF3)) =
      some (0xF4, 8, 8) := by decide
/-- V-CTL-8. -/
theorem test_ret_top : after (step (withSp (codeAt 0 [0x11]) 0xFF)) stop = some (faultAt .outOfBounds 256 0) := by decide
/-- V-JMP-1. -/
theorem test_jmp :
    after (step (withX (codeAt 0 [0x54, 2]) 2 0x10)) (fun t => { t with pc := 0 }) =
      some (withX (codeAt 0 [0x54, 2]) 2 0x10) ∧
    after (step (withX (codeAt 0 [0x54, 2]) 2 0x10)) (fun t => t.pc.toNat) = some 16 := by decide
/-- V-JEQ-1, V-JEQ-2. -/
theorem test_jeq :
    after (step (withE (withX (codeAt 4 [0x55, 2]) 2 0x10))) (fun t => t.pc.toNat) = some 16 ∧
    after (step (withG (withX (codeAt 4 [0x55, 2]) 2 0x10))) (fun t => t.pc.toNat) = some 6 := by decide
/-- V-JEQ-4: not taken, yet the operand is checked. -/
theorem test_jeq_bad : after (step (withL (codeAt 4 [0x55, 8]))) stop = some (faultAt .invalidRegister 8 4) := by decide
/-- V-JNE-3, V-JNE-2. -/
theorem test_jne :
    after (step (withX (codeAt 20 [0x56, 3]) 3 0x0C)) (fun t => t.pc.toNat) = some 12 ∧
    after (step (withE (withX (codeAt 20 [0x56, 3]) 3 0x0C))) (fun t => t.pc.toNat) = some 22 := by decide
/-- V-JNE-4. -/
theorem test_jne_bad : after (step (withE (codeAt 20 [0x56, 200]))) stop = some (faultAt .invalidRegister 200 20) := by
  decide

/-! ### The engine -/

/-- V-ENG-1, V-ENG-3, V-ENG-9, V-ENG-10, V-ENG-11. -/
theorem test_engine_faults :
    after (step State.reset) stop = some (faultAt .unknownInstruction 0 0) ∧
    after (step (codeAt 256 [])) stop = some (faultAt .outOfBounds 256 256) ∧
    after (step (codeAt 255 [0xA1])) stop = some (faultAt .unknownInstruction 161 255) ∧
    after (step (codeAt 254 [0x82, 9])) stop = some (faultAt .outOfBounds 256 254) ∧
    after (step (withSp (codeAt 0 [0x45, 8]) 0)) stop = some (faultAt .invalidRegister 8 0) := by decide
/-- V-ENG-12, V-HLT-3: a stopped core does not step. -/
theorem test_engine_stopped :
    after (step (takeFault (raiseUnknownInstruction 0) State.reset)) id =
      some (takeFault (raiseUnknownInstruction 0) State.reset) ∧
    after (step (halt (codeAt 0 [0x82, 0, 9]))) id = some (halt (codeAt 0 [0x82, 0, 9])) := by decide

/-! ### The host's side -/

/-- The values of 10_state.md R39. -/
theorem test_reset :
    State.reset.regs = #v[0, 0, 0, 0, 0, 0, 0, 0xF4] ∧ State.reset.sp = 0xF4 ∧ State.reset.pc = 0 ∧
      byteAt State.reset 255 = 0 ∧ resetCore (halt (codeAt 9 [1])) = State.reset := by decide
/-- A loader that reads no other literal than eight digits alone, and one that reads all R171 lets it read. -/
def strict : Config.TextLeniency := { surrounds := fun _ _ => false, digits := fun _ => false, endsLine := fun _ => false }
def lenient : Config.TextLeniency := { surrounds := fun _ _ => true, digits := fun _ => true, endsLine := fun _ => true }
/-- The source's program text and image (95_test_vectors.md S1, S2, P1). -/
theorem test_invoke :
    parseProgramText strict "10000010  # LDI R0,8\n00000000\n\n# data\n  # 9\n00001000\n".toList = .ok [0x82, 0, 8] ∧
      (match invoke strict [some "00000001".toList] with | .ok s => s.mem | .error _ => []) = [(0, 1)] := by decide
/-- The ways a launch fails (45_host_interface.md R171, R179, R180). -/
theorem test_invoke_fails :
    (match invoke strict [] with | .ok _ => none | .error e => some e) = some LaunchError.usage ∧
      (match invoke strict [none] with | .ok _ => none | .error e => some e) = some LaunchError.fileNotFound ∧
      (match invoke strict [some "12".toList] with | .ok _ => none | .error e => some e) =
        some LaunchError.malformedToken := by decide
/-- Lines that are no binary literal of a byte whatever the leniency: load errors (60_exceptions.md R202). -/
theorem test_malformed :
    ["12", "111111111", "1000 0010", "foo bar", " 12", "xyz\t", "12 34", "1000\t0010", "-1", "256"].all (fun x =>
      parseProgramText strict x.toList = .error .malformedToken ∧
        parseProgramText lenient x.toList = .error .malformedToken) = true := by decide
/-- What R171 leaves unstated is read as the leniency says: white space around a literal (a form feed and a vertical tab
too), a shorter literal, another end of a line. -/
theorem test_leniency :
    ["\t00000011", "00000011\r", "\x0c00000011", "00000011\x0b", "11"].all (fun x =>
      parseProgramText strict x.toList = .error .malformedToken ∧ parseProgramText lenient x.toList = .ok [3]) = true ∧
      parseProgramText strict "00000011\r00000001".toList = .error .malformedToken ∧
      parseProgramText lenient "00000011\r00000001".toList = .ok [3, 1] := by decide
/-- 45_host_interface.md R176. -/
theorem test_render : render [8, 72, 0, 255] = "8\n72\n0\n255\n".toList := by decide
/-- The suggested codes of 92_eei_decisions.md D14. -/
def suggestedCodes : Config.ExitCodes :=
  { usage := 2, fileNotFound := 3, runtime := 1, load := 4, nonzero := by decide, distinct := by decide }
theorem test_exit_codes :
    runExitCode suggestedCodes (halt State.reset) = some 0 ∧ runExitCode suggestedCodes State.reset = none ∧
      runExitCode suggestedCodes (takeFault (raiseOutOfBounds 256) State.reset) = some 1 ∧
      launchExitCode suggestedCodes .malformedToken = 4 ∧
      faultCode (takeFault (raiseInvalidRegister 8) State.reset) = 2 ∧ faultCode State.reset = 0 := by decide

/-! ### Witnesses: every statement with hypotheses is about something -/

theorem witness_EncodedProgramsDecodeToThemselves : [Instr.ldi 8 255, .ret].length ≤ 2 := by decide
theorem witness_WhatDecodesIsTheEncoding : decode [0x47, 255, 9] = .ok (.prn 255, [9]) := by decide
theorem witness_OpcodeByteAloneTellsTheLength :
    (decode [0x82, 0, 0] = .ok (.ldi 0 0, []) ∧ decode [0x82, 255, 255, 1] = .ok (.ldi 255 255, [1])) ∧
      (0x00#8 ∉ listed ∧ 0xFF#8 ∉ listed) := by decide
theorem witness_StepExecutesTheDecodedInstruction :
    (codeAt 253 [0xA0, 7, 8]).run = .running ∧ decode (codeBytes (codeAt 253 [0xA0, 7, 8])) = .ok (.add 7 8, []) ∧
      decode (codeBytes (codeAt 255 [0x11])) = .ok (.ret, []) := by decide
theorem witness_StepFaultsWhereDecodingFails :
    (codeAt 255 [0xFF]).run = .running ∧ (codeAt 255 [0xFF]).pc.toNat ≤ 256 ∧
      decode (codeBytes (codeAt 255 [0xFF])) = .error (.unknownInstruction 0xFF) ∧
      decode (codeBytes (codeAt 256 [])) = .error (.missingByte 0) ∧
      decode (codeBytes (codeAt 255 [0x47])) = .error (.missingByte 1) ∧
      decode (codeBytes (codeAt 254 [0x82, 9])) = .error (.missingByte 2) := by decide
theorem witness_OpcodeFetchFaultsOnlyPastTheEnd :
    (codeAt 255 [1]).pc.toNat ≤ 255 ∧ (codeAt 256 []).run = .running ∧ (codeAt 256 []).pc.toNat = 256 := by decide
theorem witness_UnlistedOpcodesRaiseUnknownInstruction :
    startsWith State.reset 0x00 ∧ 0x00#8 ∉ listed ∧ startsWith (codeAt 255 [0xFF]) 0xFF ∧ 0xFF#8 ∉ listed := by decide
theorem witness_StoppedCoreNeverChanges :
    (halt State.reset).run ≠ .running ∧ (takeFault (raiseOutOfBounds 256) State.reset).run ≠ .running := by decide

theorem witness_LdiStepFollowsItsRule :
    (startsWith (codeAt 254 [0x82, 9]) 0x82 ∧ 254 ≤ (codeAt 254 [0x82, 9]).pc.toNat) ∧
      (startsWith (codeAt 253 [0x82, 7, 0xFF]) 0x82 ∧ ¬ 254 ≤ (codeAt 253 [0x82, 7, 0xFF]).pc.toNat ∧
        (o1 (codeAt 253 [0x82, 7, 0xFF])).toNat < 8) ∧
      (startsWith (codeAt 0 [0x82, 8, 0]) 0x82 ∧ ¬ (o1 (codeAt 0 [0x82, 8, 0])).toNat < 8) := by decide
theorem witness_PrnStepFollowsItsRule :
    (startsWith (codeAt 255 [0x47]) 0x47 ∧ (codeAt 255 [0x47]).pc.toNat = 255) ∧
      (startsWith (codeAt 254 [0x47, 7]) 0x47 ∧ (o1 (codeAt 254 [0x47, 7])).toNat < 8) ∧
      (startsWith (codeAt 254 [0x47, 8]) 0x47 ∧ ¬ (o1 (codeAt 254 [0x47, 8])).toNat < 8) := by decide
theorem witness_HltStepFollowsItsRule : startsWith (codeAt 255 [0x01]) 0x01 := by decide
theorem witness_MulStepFollowsItsRule :
    (startsWith (codeAt 254 [0xA2, 9]) 0xA2 ∧ 254 ≤ (codeAt 254 [0xA2, 9]).pc.toNat) ∧
      (startsWith (codeAt 253 [0xA2, 7, 7]) 0xA2 ∧ (o1 (codeAt 253 [0xA2, 7, 7])).toNat < 8 ∧
        (o2 (codeAt 253 [0xA2, 7, 7])).toNat < 8) ∧
      (startsWith (codeAt 0 [0xA2, 7, 8]) 0xA2 ∧ (o1 (codeAt 0 [0xA2, 7, 8])).toNat < 8 ∧
        ¬ (o2 (codeAt 0 [0xA2, 7, 8])).toNat < 8) ∧
      (startsWith (codeAt 0 [0xA2, 8, 9]) 0xA2 ∧ ¬ (o1 (codeAt 0 [0xA2, 8, 9])).toNat < 8) := by decide
theorem witness_AddStepFollowsItsRule :
    (startsWith (codeAt 254 [0xA0, 9]) 0xA0 ∧ 254 ≤ (codeAt 254 [0xA0, 9]).pc.toNat) ∧
      (startsWith (codeAt 253 [0xA0, 7, 7]) 0xA0 ∧ (o1 (codeAt 253 [0xA0, 7, 7])).toNat < 8 ∧
        (o2 (codeAt 253 [0xA0, 7, 7])).toNat < 8) ∧
      (startsWith (codeAt 0 [0xA0, 7, 8]) 0xA0 ∧ (o1 (codeAt 0 [0xA0, 7, 8])).toNat < 8 ∧
        ¬ (o2 (codeAt 0 [0xA0, 7, 8])).toNat < 8) ∧
      (startsWith (codeAt 0 [0xA0, 8, 9]) 0xA0 ∧ ¬ (o1 (codeAt 0 [0xA0, 8, 9])).toNat < 8) := by decide
theorem witness_CmpStepFollowsItsRule :
    (startsWith (codeAt 254 [0xA7, 9]) 0xA7 ∧ 254 ≤ (codeAt 254 [0xA7, 9]).pc.toNat) ∧
      (startsWith (codeAt 253 [0xA7, 7, 7]) 0xA7 ∧ (o1 (codeAt 253 [0xA7, 7, 7])).toNat < 8 ∧
        (o2 (codeAt 253 [0xA7, 7, 7])).toNat < 8) ∧
      (startsWith (codeAt 0 [0xA7, 7, 8]) 0xA7 ∧ (o1 (codeAt 0 [0xA7, 7, 8])).toNat < 8 ∧
        ¬ (o2 (codeAt 0 [0xA7, 7, 8])).toNat < 8) ∧
      (startsWith (codeAt 0 [0xA7, 8, 9]) 0xA7 ∧ ¬ (o1 (codeAt 0 [0xA7, 8, 9])).toNat < 8) := by decide
theorem witness_PushStepFollowsItsRule :
    (startsWith (codeAt 255 [0x45]) 0x45 ∧ (codeAt 255 [0x45]).pc.toNat = 255) ∧
      (startsWith (withSp (codeAt 254 [0x45, 7]) 0) 0x45 ∧ (o1 (withSp (codeAt 254 [0x45, 7]) 0)).toNat < 8 ∧
        (withSp (codeAt 254 [0x45, 7]) 0).sp = 0#8) ∧
      (startsWith (withSp (codeAt 254 [0x45, 7]) 1) 0x45 ∧ (o1 (withSp (codeAt 254 [0x45, 7]) 1)).toNat < 8 ∧
        (withSp (codeAt 254 [0x45, 7]) 1).sp ≠ 0#8) ∧
      (startsWith (codeAt 254 [0x45, 8]) 0x45 ∧ ¬ (o1 (codeAt 254 [0x45, 8])).toNat < 8) := by decide
theorem witness_PopStepFollowsItsRule :
    (startsWith (codeAt 255 [0x46]) 0x46 ∧ (codeAt 255 [0x46]).pc.toNat = 255) ∧
      (startsWith (withSp (codeAt 254 [0x46, 7]) 255) 0x46 ∧ (o1 (withSp (codeAt 254 [0x46, 7]) 255)).toNat < 8 ∧
        (withSp (codeAt 254 [0x46, 7]) 255).sp = 255#8) ∧
      (startsWith (withSp (codeAt 254 [0x46, 7]) 254) 0x46 ∧ (o1 (withSp (codeAt 254 [0x46, 7]) 254)).toNat < 8 ∧
        (withSp (codeAt 254 [0x46, 7]) 254).sp ≠ 255#8) ∧
      (startsWith (codeAt 254 [0x46, 8]) 0x46 ∧ ¬ (o1 (codeAt 254 [0x46, 8])).toNat < 8) := by decide
theorem witness_CallStepFollowsItsRule :
    (startsWith (codeAt 255 [0x50]) 0x50 ∧ (codeAt 255 [0x50]).pc.toNat = 255) ∧
      (startsWith (withSp (codeAt 254 [0x50, 7]) 0) 0x50 ∧ (o1 (withSp (codeAt 254 [0x50, 7]) 0)).toNat < 8 ∧
        (withSp (codeAt 254 [0x50, 7]) 0).sp = 0#8) ∧
      (startsWith (withSp (codeAt 254 [0x50, 7]) 1) 0x50 ∧ (o1 (withSp (codeAt 254 [0x50, 7]) 1)).toNat < 8 ∧
        (withSp (codeAt 254 [0x50, 7]) 1).sp ≠ 0#8 ∧ (withSp (codeAt 254 [0x50, 7]) 1).pc.toNat = 254) ∧
      (startsWith (withSp (codeAt 253 [0x50, 7]) 1) 0x50 ∧ (o1 (withSp (codeAt 253 [0x50, 7]) 1)).toNat < 8 ∧
        (withSp (codeAt 253 [0x50, 7]) 1).sp ≠ 0#8 ∧ (withSp (codeAt 253 [0x50, 7]) 1).pc.toNat ≠ 254) ∧
      (startsWith (codeAt 254 [0x50, 8]) 0x50 ∧ ¬ (o1 (codeAt 254 [0x50, 8])).toNat < 8) := by decide
theorem witness_RetStepFollowsItsRule :
    (startsWith (withSp (codeAt 255 [0x11]) 255) 0x11 ∧ (withSp (codeAt 255 [0x11]) 255).sp = 255#8) ∧
      (startsWith (withSp (codeAt 255 [0x11]) 254) 0x11 ∧ (withSp (codeAt 255 [0x11]) 254).sp ≠ 255#8) := by decide
theorem witness_JmpStepFollowsItsRule :
    (startsWith (codeAt 255 [0x54]) 0x54 ∧ (codeAt 255 [0x54]).pc.toNat = 255) ∧
      (startsWith (codeAt 254 [0x54, 7]) 0x54 ∧ (o1 (codeAt 254 [0x54, 7])).toNat < 8) ∧
      (startsWith (codeAt 254 [0x54, 8]) 0x54 ∧ ¬ (o1 (codeAt 254 [0x54, 8])).toNat < 8) := by decide
theorem witness_JeqStepFollowsItsRule :
    (startsWith (withE (codeAt 255 [0x55])) 0x55 ∧ (withE (codeAt 255 [0x55])).pc.toNat = 255) ∧
      (startsWith (withE (codeAt 254 [0x55, 7])) 0x55 ∧ (o1 (withE (codeAt 254 [0x55, 7]))).toNat < 8 ∧
        (withE (codeAt 254 [0x55, 7])).flags.equal = true) ∧
      (startsWith (codeAt 254 [0x55, 7]) 0x55 ∧ (codeAt 254 [0x55, 7]).flags.equal = false) ∧
      (startsWith (codeAt 254 [0x55, 8]) 0x55 ∧ ¬ (o1 (codeAt 254 [0x55, 8])).toNat < 8) := by decide
theorem witness_JneStepFollowsItsRule :
    (startsWith (codeAt 255 [0x56]) 0x56 ∧ (codeAt 255 [0x56]).pc.toNat = 255) ∧
      (startsWith (withE (codeAt 254 [0x56, 7])) 0x56 ∧ (o1 (withE (codeAt 254 [0x56, 7]))).toNat < 8 ∧
        (withE (codeAt 254 [0x56, 7])).flags.equal = true) ∧
      (startsWith (codeAt 254 [0x56, 7]) 0x56 ∧ (codeAt 254 [0x56, 7]).flags.equal = false) ∧
      (startsWith (codeAt 254 [0x56, 8]) 0x56 ∧ ¬ (o1 (codeAt 254 [0x56, 8])).toNat < 8) := by decide

/-- The hypothesis of `LdiCompletes`, `PrnCompletes`, `JmpCompletes`, `JeqAndJneComplete` and, for both operands, of
`AddAndMulComplete` and `CmpCompletes`: a valid register, at both ends of the range, the same one twice included. -/
theorem witness_LdiCompletes : (7#8).toNat < 8 ∧ (0#8).toNat < 8 := by decide
theorem witness_PrnCompletes : (7#8).toNat < 8 := by decide
theorem witness_AddAndMulComplete : (7#8).toNat < 8 ∧ (7#8).toNat < 8 := by decide
theorem witness_CmpCompletes : (0#8).toNat < 8 ∧ (7#8).toNat < 8 := by decide
theorem witness_JmpCompletes : (7#8).toNat < 8 := by decide
theorem witness_JeqAndJneComplete : (7#8).toNat < 8 := by decide
theorem witness_PushCompletes :
    (7#8).toNat < 8 ∧ Memory.wf (withSp (codeAt 0 [0x45, 7]) 1).mem = true ∧ (withSp (codeAt 0 [0x45, 7]) 1).sp ≠ 0#8 := by
  decide
theorem witness_PopCompletes : (7#8).toNat < 8 ∧ (withSp State.reset 254).sp ≠ 255#8 := by decide
theorem witness_CallCompletes :
    (7#8).toNat < 8 ∧ Memory.wf (withSp (codeAt 253 [0x50, 7]) 1).mem = true ∧
      (withSp (codeAt 253 [0x50, 7]) 1).sp ≠ 0#8 ∧ (withSp (codeAt 253 [0x50, 7]) 1).pc.toNat + 2 ≤ 255 := by decide
theorem witness_RetCompletes : (withSp State.reset 254).sp ≠ 255#8 := by decide

theorem witness_InvalidRegisterOperandsFault :
    WellFormed (.ldi 8 0) = false ∧ WellFormed (.cmp 7 8) = false ∧ WellFormed (.jeq 255) = false := by decide
theorem witness_StackRangeFaults :
    (7#8).toNat < 8 ∧ (withSp State.reset 0).sp = 0#8 ∧ (withSp State.reset 255).sp = 255#8 := by decide
theorem witness_CallFaultsWhereTheReturnAddressIsNoByte :
    (7#8).toNat < 8 ∧ (withSp (codeAt 254 [0x50, 7]) 1).sp ≠ 0#8 ∧
      255 < (withSp (codeAt 254 [0x50, 7]) 1).pc.toNat + 2 := by decide
/-- Each place of the order of 60_exceptions.md R198, and the end of it. -/
theorem witness_StepReportsTheFirstFault :
    State.reset.run = .running ∧
      firstFault (codeAt 256 []) = some (.outOfBounds, 256) ∧
      firstFault (codeAt 255 [0xFF]) = some (.unknownInstruction, 255) ∧
      firstFault (codeAt 255 [0x54]) = some (.outOfBounds, 256) ∧
      firstFault (codeAt 254 [0x82, 9]) = some (.outOfBounds, 256) ∧
      firstFault (codeAt 0 [0xA0, 9, 8]) = some (.invalidRegister, 9) ∧
      firstFault (codeAt 0 [0xA0, 7, 8]) = some (.invalidRegister, 8) ∧
      firstFault (withSp (codeAt 254 [0x50, 0]) 0) = some (.outOfBounds, -1) ∧
      firstFault (withSp (codeAt 0 [0x11]) 255) = some (.outOfBounds, 256) ∧
      firstFault (codeAt 254 [0x50, 0]) = some (.outOfBounds, 256) ∧
      firstFault (codeAt 253 [0x50, 7]) = none := by decide
theorem witness_FaultEntryChangesOnlyRunAndRecord :
    (codeAt 254 [0x82, 9]).run = .running ∧
      step (codeAt 254 [0x82, 9]) = .next (takeFault (raiseOutOfBounds 256) (codeAt 254 [0x82, 9])) ∧
      (takeFault (raiseOutOfBounds 256) (codeAt 254 [0x82, 9])).run = .faulted := ⟨by decide, next_of_after (by decide), by decide⟩
theorem witness_OnlyHltHalts :
    (codeAt 255 [1]).run = .running ∧ step (codeAt 255 [1]) = .next (advance (halt (codeAt 255 [1])) 1) ∧
      (advance (halt (codeAt 255 [1])) 1).run = .halted := ⟨by decide, next_of_after (by decide), by decide⟩

/-- An ADD that completes and one that faults, for the rules over all instructions but CMP, PUSH, POP, CALL and RET. -/
theorem witness_OnlyCmpWritesFlags :
    exec (.add 0 7) (withG State.reset) = .next (advance (setReg (withG State.reset) 0 0xF4) 3) ∧
      exec (.add 8 7) (withG State.reset) = .next (takeFault (raiseInvalidRegister 8) (withG State.reset)) ∧
      (∀ a b, Instr.add 0 7 ≠ .cmp a b) := ⟨next_of_after (by decide), next_of_after (by decide), by simp⟩
theorem witness_LessAndGreaterAreNeverRead :
    step (withG (codeAt 254 [0x56, 7])) = .next (jumpTo (withG (codeAt 254 [0x56, 7])) 7) :=
  next_of_after (by decide)
theorem witness_OutputGrowsByPrnAloneAndIsNeverRead :
    step (codeAt 254 [0x47, 7]) = .next (advance (emit (codeAt 254 [0x47, 7]) 0xF4) 2) ∧
      (o1 (codeAt 254 [0x47, 7])).toNat < 8 ∧ startsWith (codeAt 254 [0x47, 7]) 0x47 ∧
      (advance (emit (codeAt 254 [0x47, 7]) 0xF4) 2).run = .running :=
  ⟨next_of_after (by decide), by decide, by decide, by decide⟩
theorem witness_OnlyPushAndCallWriteMemory :
    exec .ret State.reset = .next (setPc (dropTop State.reset) 0) ∧ (∀ r, Instr.ret ≠ .push r) ∧
      (∀ r, Instr.ret ≠ .call r) := ⟨next_of_after (by decide), by simp, by simp⟩
theorem witness_OnlyStackInstructionsMoveSp :
    exec (.ldi 7 0) State.reset = .next (advance (setReg State.reset 7 0) 3) ∧ (∀ r, Instr.ldi 7 0 ≠ .push r) ∧
      (∀ r, Instr.ldi 7 0 ≠ .pop r) ∧ (∀ r, Instr.ldi 7 0 ≠ .call r) ∧ Instr.ldi 7 0 ≠ .ret :=
  ⟨next_of_after (by decide), by simp, by simp, by simp, by simp⟩
theorem witness_OnlyTheNamedDestinationChanges :
    exec (.pop 6) State.reset = .next (advance (dropTop (setReg State.reset 6 0)) 2) ∧
      destination (.pop 6) ≠ some (BitVec.ofNat 8 (7 : Fin 8).val) := ⟨next_of_after (by decide), by decide⟩
theorem witness_PushThenPopCopiesARegister :
    (7#8).toNat < 8 ∧ (0#8).toNat < 8 ∧ Memory.wf (withSp State.reset 1).mem = true ∧ (withSp State.reset 1).sp ≠ 0#8 := by
  decide
theorem witness_RetReturnsBehindTheCall :
    (7#8).toNat < 8 ∧ Memory.wf (codeAt 253 [0x50, 7]).mem = true ∧ (codeAt 253 [0x50, 7]).sp ≠ 0#8 ∧
      (codeAt 253 [0x50, 7]).pc.toNat + 2 ≤ 255 ∧
      exec (.call 7) (codeAt 253 [0x50, 7]) =
        .next (setPc (setSp (withM (codeAt 253 [0x50, 7]) 0xF3 0xFF) 0xF3) 0xF4) ∧
      (withSp (withM (codeAt 9 [0x11]) 0xF3 0xFF) 0xF3).sp = 0xF3#8 ∧
      byteAt (withSp (withM (codeAt 9 [0x11]) 0xF3 0xFF) 0xF3) 0xF3 =
        byteAt (setPc (setSp (withM (codeAt 253 [0x50, 7]) 0xF3 0xFF) 0xF3) 0xF4) 0xF3 :=
  ⟨by decide, by decide, by decide, by decide, next_of_after (by decide), by decide, by decide⟩
theorem witness_CmpSetsExactlyOneFlag :
    (0#8).toNat < 8 ∧ (7#8).toNat < 8 ∧ exec (.cmp 0 7) State.reset = .next (advance (withL State.reset) 3) :=
  ⟨by decide, by decide, next_of_after (by decide)⟩

theorem witness_MemoryPrimitivesAreBoundsChecked :
    Memory.wf (codeAt 0 [1]).mem = true ∧ ((0 : Int) ≤ 0 ∧ (0 : Int) ≤ 255) ∧ ((0 : Int) ≤ 255 ∧ (255 : Int) ≤ 255) ∧
      ¬ ((0 : Int) ≤ -1 ∧ (-1 : Int) ≤ 255) ∧ ¬ ((0 : Int) ≤ 256 ∧ (256 : Int) ≤ 255) := by decide
theorem witness_CanonicalMemoryIsItsBytes :
    Memory.wf (Memory.write (Memory.write [] 255 7) 0 9) = true ∧ Memory.wf (Memory.write (Memory.write [] 0 9) 255 7) = true ∧
      (∀ a : Nat, a < 256 →
        Memory.read (Memory.write (Memory.write [] 255 7) 0 9) a = Memory.read (Memory.write (Memory.write [] 0 9) 255 7) a) :=
  ⟨by decide, by decide, fun _ _ => rfl⟩
theorem witness_LoadPlacesTheImage :
    (List.replicate 256 0x01#8).length ≤ 256 ∧ ([] : List Byte).length ≤ 256 ∧ 256 < (List.replicate 257 0x01#8).length :=
  ⟨by rw [List.length_replicate], Nat.zero_le _, by rw [List.length_replicate]; omega⟩
theorem witness_StepKeepsTheInvariant :
    (codeAt 253 [0xA7, 0, 7]).Inv ∧ step (codeAt 253 [0xA7, 0, 7]) = .next (advance (withL (codeAt 253 [0xA7, 0, 7])) 3) :=
  ⟨by decide, next_of_after (by decide)⟩
theorem witness_EveryReachableStateMeetsTheInvariant : Reachable [] (takeFault (raiseUnknownInstruction 0) State.reset) :=
  ⟨State.reset, 1, rfl, next_of_after (by decide)⟩
theorem witness_StatusAndExitCodeFollowTheRunState :
    (takeFault (raiseOutOfBounds 256) State.reset).run = .faulted ∧ (halt State.reset).run = .halted ∧
      State.reset.run = .running ∧ suggestedCodes.runtime ≠ 0 := by decide
theorem witness_ProgramTextsParseToTheirBytes :
    (∀ x ∈ ([(some 0x82, 2, some ['L', '\t', ' ']), (none, 0, none), (none, 3, some [])] : List SourceLine),
      SourceLine.ok x) ∧
      parseProgramText strict (SourceLine.text (some 0x82, 2, some ['L', '\t', ' ']) ++ SourceLine.text (none, 3, none)) =
        .ok [0x82] := ⟨by simp [SourceLine.ok, isWhite], by decide⟩
theorem witness_MalformedTextsAreLoadErrors :
    (unreadable ['\t', '1', '2'] ∧ unreadable ['1', '0', ' ', '0'] ∧
      unreadable ['1', '0', '0', '0', '0', '0', '0', '0', '0']) ∧
      (startsLine [] ∧ startsLine ['#', '1', '\n']) ∧ (endsToken [] ∧ endsToken ['\n', '0'] ∧ endsToken ['#', '1']) :=
  ⟨⟨⟨by decide, .inl ⟨'2', by decide⟩⟩,
    ⟨by decide, .inr (.inl ⟨['1'], '0', [' '], '0', [], by simp⟩)⟩,
    ⟨by decide, .inr (.inr ⟨_, rfl, by simp, by simp⟩)⟩⟩, by decide, by decide⟩

/-! ### The facts about instructions as syntax -/

theorem test_encoding_shape (i : Instr) : Laws.EncodingShape.Statement i := by
  cases i
  · exact Laws.EncodingShape.ldi _ _
  · exact Laws.EncodingShape.prn _
  · exact Laws.EncodingShape.hlt
  · exact Laws.EncodingShape.mul _ _
  · exact Laws.EncodingShape.add _ _
  · exact Laws.EncodingShape.push _
  · exact Laws.EncodingShape.pop _
  · exact Laws.EncodingShape.call _
  · exact Laws.EncodingShape.ret
  · exact Laws.EncodingShape.cmp _ _
  · exact Laws.EncodingShape.jmp _
  · exact Laws.EncodingShape.jeq _
  · exact Laws.EncodingShape.jne _

end Sys2Proof.Tests
end

section
/-! PROOFS. 00_scope.md: the two memory primitives. -/

namespace Sys2Proof.Proofs

open Sys2Proof Sys2Proof.Machine

/-- The cells of a state after a write to its memory: the written one, and every other as before. -/
theorem byteAt_write {s : State} (hwf : Memory.wf s.mem = true) (a b : Nat) (v : Byte) :
    byteAt { s with mem := Memory.write s.mem a v } b = if a = b then v else byteAt s b :=
  read_write hwf

/-- Settles O51: inside memory the write answers the state of `memWrite_inside`, whose cells `byteAt_write` reads back;
outside both primitives raise. -/
theorem memoryPrimitivesAreBoundsChecked : Obligations.MemoryPrimitivesAreBoundsChecked := by
  intro s a v hwf
  constructor
  · rintro ⟨h0, h255⟩
    have h256 : a < 256 := by omega
    refine ⟨memRead_inside s h0 h256, _, memWrite_inside s v h0 h256, ?written, fun b hb => ?others, rfl⟩
    case written => rw [byteAt_write hwf, if_pos rfl]
    case others => rw [byteAt_write hwf, if_neg hb.symm]
  · intro hout
    have hout : a < 0 ∨ 256 ≤ a := by omega
    exact ⟨memRead_outside s hout, memWrite_outside s v hout⟩

end Sys2Proof.Proofs
end

section
/-! PROOFS. What executing an instruction can do: it raises one of the faults of 60_exceptions.md R198, or completes
with the one state its rule gives. Both are relations, so that a proof about every instruction is a case split over the
ways to complete. -/

namespace Sys2Proof.Proofs

open Sys2Proof Sys2Proof.Machine

/-- The first register operand that is no register index, in the order of the checks (40_engine_cycle.md R105). -/
def firstBadOperand (i : Instr) : Option Byte := i.regOperands.find? fun o => !isRegIndex o

/-- The state after a push of `v` with room on the stack (43_stack.md R140). -/
def pushed (s : State) (v : Byte) : State :=
  { s with mem := Memory.write s.mem (s.sp.toNat - 1) v, sp := s.sp - 1#8 }

@[simp] theorem pushed_mem (s : State) (v : Byte) : (pushed s v).mem = Memory.write s.mem (s.sp.toNat - 1) v := rfl
@[simp] theorem pushed_regs (s : State) (v : Byte) : (pushed s v).regs = s.regs := rfl
@[simp] theorem pushed_flags (s : State) (v : Byte) : (pushed s v).flags = s.flags := rfl
@[simp] theorem pushed_pc (s : State) (v : Byte) : (pushed s v).pc = s.pc := rfl
@[simp] theorem pushed_sp (s : State) (v : Byte) : (pushed s v).sp = s.sp - 1#8 := rfl
@[simp] theorem pushed_run (s : State) (v : Byte) : (pushed s v).run = s.run := rfl
@[simp] theorem pushed_fault (s : State) (v : Byte) : (pushed s v).fault = s.fault := rfl
@[simp] theorem pushed_out (s : State) (v : Byte) : (pushed s v).out = s.out := rfl

/-- `Completes s i t`: executing `i` in `s` raises nothing and leaves `t`. -/
inductive Completes (s : State) : Instr → State → Prop where
  | ldi {r : Byte} (h : r.toNat < 8) (v : Byte) :
      Completes s (.ldi r v) (advance (setReg s ⟨r.toNat, h⟩ v) 3)
  | prn {r : Byte} (h : r.toNat < 8) :
      Completes s (.prn r) (advance (emit s (getReg s ⟨r.toNat, h⟩)) 2)
  | hlt : Completes s .hlt (advance (halt s) 1)
  | mul {a b : Byte} (ha : a.toNat < 8) (hb : b.toNat < 8) :
      Completes s (.mul a b) (advance (aluApply .multiply s ⟨a.toNat, ha⟩ ⟨b.toNat, hb⟩) 3)
  | add {a b : Byte} (ha : a.toNat < 8) (hb : b.toNat < 8) :
      Completes s (.add a b) (advance (aluApply .add s ⟨a.toNat, ha⟩ ⟨b.toNat, hb⟩) 3)
  | push {r : Byte} (h : r.toNat < 8) (hsp : s.sp ≠ 0#8) :
      Completes s (.push r) (advance (pushed s (getReg s ⟨r.toNat, h⟩)) 2)
  | pop {r : Byte} (h : r.toNat < 8) (hsp : s.sp ≠ 255#8) :
      Completes s (.pop r) (advance (dropTop (setReg s ⟨r.toNat, h⟩ (byteAt s s.sp.toNat))) 2)
  | call {r : Byte} (h : r.toNat < 8) (hsp : s.sp ≠ 0#8) (hpc : s.pc.toNat < 254) :
      Completes s (.call r)
        (setPc (pushed s (BitVec.ofNat 8 (s.pc.toNat + 2))) (targetOf (getReg s ⟨r.toNat, h⟩)))
  | ret (hsp : s.sp ≠ 255#8) : Completes s .ret (setPc (dropTop s) (targetOf (byteAt s s.sp.toNat)))
  | cmp {a b : Byte} (ha : a.toNat < 8) (hb : b.toNat < 8) :
      Completes s (.cmp a b) (advance (aluApply .compare s ⟨a.toNat, ha⟩ ⟨b.toNat, hb⟩) 3)
  | jmp {r : Byte} (h : r.toNat < 8) : Completes s (.jmp r) (jumpTo s ⟨r.toNat, h⟩)
  | jeqTaken {r : Byte} (h : r.toNat < 8) (he : equalSet s = true) :
      Completes s (.jeq r) (jumpTo s ⟨r.toNat, h⟩)
  | jeqPast {r : Byte} (h : r.toNat < 8) (he : equalSet s = false) : Completes s (.jeq r) (advance s 2)
  | jneTaken {r : Byte} (h : r.toNat < 8) (he : equalSet s = false) :
      Completes s (.jne r) (jumpTo s ⟨r.toNat, h⟩)
  | jnePast {r : Byte} (h : r.toNat < 8) (he : equalSet s = true) : Completes s (.jne r) (advance s 2)

/-- `Raises s i r`: executing `i` in `s` raises `r`, the first that applies in the order of 60_exceptions.md R198. -/
inductive Raises (s : State) : Instr → Raise → Prop where
  | operand {i : Instr} {o : Byte} (h : firstBadOperand i = some o) : Raises s i (raiseInvalidRegister o)
  | pushRange {r : Byte} (h : r.toNat < 8) (hsp : s.sp = 0#8) : Raises s (.push r) (raiseOutOfBounds (-1))
  | callRange {r : Byte} (h : r.toNat < 8) (hsp : s.sp = 0#8) : Raises s (.call r) (raiseOutOfBounds (-1))
  | popRange {r : Byte} (h : r.toNat < 8) (hsp : s.sp = 255#8) : Raises s (.pop r) (raiseOutOfBounds 256)
  | retRange (hsp : s.sp = 255#8) : Raises s .ret (raiseOutOfBounds 256)
  | callReturn {r : Byte} (h : r.toNat < 8) (hsp : s.sp ≠ 0#8) (hpc : 254 ≤ s.pc.toNat) :
      Raises s (.call r) (raiseOutOfBounds ((s.pc.toNat : Int) + 2))

theorem exec_of_completes {s t : State} {i : Instr} (hc : Completes s i t) : exec i s = .next t := by
  cases hc with
  | ldi h v => exact withReg_ok s h _
  | prn h => exact withReg_ok s h _
  | hlt => rfl
  | mul ha hb | add ha hb | cmp ha hb => exact execAlu_ok _ s ha hb
  | push h hsp => simp [exec, execPush, withReg_ok s h, pushRoom_ok hsp, pushByte_ok hsp, pushed]
  | pop h hsp => simp [exec, execPop, withReg_ok s h, popRoom_ok hsp, topByte_ok]
  | call h hsp hpc =>
    simp [exec, execCall, withReg_ok s h, pushRoom_ok hsp, returnAddress_ok hpc, pushByte_ok hsp, pushed]
  | ret hsp => simp [exec, execRet, popRoom_ok hsp, topByte_ok]
  | jmp h => exact withReg_ok s h _
  | jeqTaken h he | jeqPast h he => simp [exec, execJeq, execJumpIf_ok _ s h, he]
  | jneTaken h he | jnePast h he => simp [exec, execJne, execJumpIf_ok _ s h, he]

/-- The one register operand of an instruction is the bad one. -/
theorem find_singleton_bad {r o : Byte} (h : [r].find? (fun x => !isRegIndex x) = some o) :
    r = o ∧ 8 ≤ r.toNat := by
  simpa [isRegIndex, and_comm] using h

/-- Of two register operands the bad one is the first, or the second behind a valid first. -/
theorem find_pair_bad {a b o : Byte} (h : [a, b].find? (fun x => !isRegIndex x) = some o) :
    (a = o ∧ 8 ≤ a.toNat) ∨ (a.toNat < 8 ∧ b = o ∧ 8 ≤ b.toNat) := by
  rcases Nat.lt_or_ge a.toNat 8 with ha | ha
  · rw [List.find?_cons_of_neg (by simpa [isRegIndex_iff] using ha)] at h
    exact .inr ⟨ha, find_singleton_bad h⟩
  · rw [List.find?_cons_of_pos (by simpa [isRegIndex] using ha)] at h
    exact .inl ⟨Option.some.inj h, ha⟩

theorem exec_of_firstBadOperand (s : State) {i : Instr} {o : Byte} (h : firstBadOperand i = some o) :
    exec i s = .next (takeFault (raiseInvalidRegister o) s) := by
  cases i with
  | hlt | ret => cases h
  | ldi r | prn r | push r | pop r | call r | jmp r | jeq r | jne r =>
    obtain ⟨rfl, hr⟩ := find_singleton_bad h
    exact withReg_error s hr _
  | mul a b | add a b | cmp a b =>
    rcases find_pair_bad h with ⟨rfl, ha⟩ | ⟨ha, rfl, hb⟩
    · exact withRegs_error1 s b ha _
    · exact withRegs_error2 s ha hb _

theorem exec_of_raises {s : State} {i : Instr} {r : Raise} (hr : Raises s i r) :
    exec i s = .next (takeFault r s) := by
  cases hr with
  | operand h => exact exec_of_firstBadOperand s h
  | pushRange h hsp => simp [exec, execPush, withReg_ok s h, pushRoom_error hsp]
  | callRange h hsp => simp [exec, execCall, withReg_ok s h, pushRoom_error hsp]
  | popRange h hsp => simp [exec, execPop, withReg_ok s h, popRoom_error hsp]
  | retRange hsp => simp [exec, execRet, popRoom_error hsp]
  | callReturn h hsp hpc => simp [exec, execCall, withReg_ok s h, pushRoom_ok hsp, returnAddress_error hpc]

/-- An instruction completes or raises; there is no third way. -/
theorem completes_or_raises (s : State) (i : Instr) : (∃ t, Completes s i t) ∨ ∃ r, Raises s i r := by
  cases hbad : firstBadOperand i with
  | some o => exact .inr ⟨_, .operand hbad⟩
  | none =>
    have hv : ∀ o ∈ i.regOperands, o.toNat < 8 := fun o ho => by
      simpa [isRegIndex_iff] using List.find?_eq_none.1 hbad o ho
    cases i with
    | ldi r v => exact .inl ⟨_, .ldi (hv r (.head _)) v⟩
    | prn r => exact .inl ⟨_, .prn (hv r (.head _))⟩
    | hlt => exact .inl ⟨_, .hlt⟩
    | mul a b => exact .inl ⟨_, .mul (hv a (.head _)) (hv b (.tail _ (.head _)))⟩
    | add a b => exact .inl ⟨_, .add (hv a (.head _)) (hv b (.tail _ (.head _)))⟩
    | push r =>
      by_cases hsp : s.sp = 0#8
      · exact .inr ⟨_, .pushRange (hv r (.head _)) hsp⟩
      · exact .inl ⟨_, .push (hv r (.head _)) hsp⟩
    | pop r =>
      by_cases hsp : s.sp = 255#8
      · exact .inr ⟨_, .popRange (hv r (.head _)) hsp⟩
      · exact .inl ⟨_, .pop (hv r (.head _)) hsp⟩
    | call r =>
      by_cases hsp : s.sp = 0#8
      · exact .inr ⟨_, .callRange (hv r (.head _)) hsp⟩
      · rcases Nat.lt_or_ge s.pc.toNat 254 with hpc | hpc
        · exact .inl ⟨_, .call (hv r (.head _)) hsp hpc⟩
        · exact .inr ⟨_, .callReturn (hv r (.head _)) hsp hpc⟩
    | ret =>
      by_cases hsp : s.sp = 255#8
      · exact .inr ⟨_, .retRange hsp⟩
      · exact .inl ⟨_, .ret hsp⟩
    | cmp a b => exact .inl ⟨_, .cmp (hv a (.head _)) (hv b (.tail _ (.head _)))⟩
    | jmp r => exact .inl ⟨_, .jmp (hv r (.head _))⟩
    | jeq r =>
      cases he : equalSet s with
      | true => exact .inl ⟨_, .jeqTaken (hv r (.head _)) he⟩
      | false => exact .inl ⟨_, .jeqPast (hv r (.head _)) he⟩
    | jne r =>
      cases he : equalSet s with
      | true => exact .inl ⟨_, .jnePast (hv r (.head _)) he⟩
      | false => exact .inl ⟨_, .jneTaken (hv r (.head _)) he⟩

/-- What executing an instruction can answer: the state it completes with, or the fault it raises. -/
theorem exec_next_iff {s t : State} {i : Instr} :
    exec i s = .next t ↔ Completes s i t ∨ ∃ r, Raises s i r ∧ t = takeFault r s := by
  constructor
  · intro h
    rcases completes_or_raises s i with ⟨u, hc⟩ | ⟨r, hr⟩
    · cases (exec_of_completes hc).symm.trans h
      exact .inl hc
    · cases (exec_of_raises hr).symm.trans h
      exact .inr ⟨r, hr, rfl⟩
  · rintro (hc | ⟨r, hr, rfl⟩)
    · exact exec_of_completes hc
    · exact exec_of_raises hr

/-! ### What completing changes, field by field -/

/-- Memory changes by the push of PUSH and CALL alone, which writes inside memory. -/
theorem Completes.mem {s t : State} {i : Instr} (hc : Completes s i t) :
    t.mem = s.mem ∨ ∃ a v, a < 256 ∧ t.mem = Memory.write s.mem a v := by
  have hlt : s.sp.toNat - 1 < 256 := Nat.lt_of_le_of_lt (Nat.sub_le _ _) s.sp.isLt
  cases hc with
  | push | call => exact .inr ⟨_, _, hlt, rfl⟩
  | _ => exact .inl rfl

/-- A register changes only as the destination of 10_state.md R23. -/
theorem Completes.regs {s t : State} {i : Instr} (hc : Completes s i t) :
    t.regs = s.regs ∨ ∃ (o : Byte) (h : o.toNat < 8) (v : Byte),
      Statements.destination i = some o ∧ t.regs = s.regs.set o.toNat v h := by
  cases hc with
  | ldi h | mul h | add h | pop h => exact .inr ⟨_, h, _, rfl, rfl⟩
  | _ => exact .inl rfl

/-- The flags change by a CMP alone, to those of a comparison. -/
theorem Completes.flags {s t : State} {i : Instr} (hc : Completes s i t) :
    t.flags = s.flags ∨ ∃ a b x y, i = .cmp a b ∧ t.flags = compareFlags x y := by
  cases hc with
  | cmp => exact .inr ⟨_, _, _, _, rfl, rfl⟩
  | _ => exact .inl rfl

/-- `pc` advances by the length of the instruction or becomes a byte (10_state.md R27). -/
theorem Completes.pc {s t : State} {i : Instr} (hc : Completes s i t) :
    t.pc = s.pc + BitVec.ofNat 9 (instrLength i) ∨ ∃ b : Byte, t.pc = targetOf b := by
  cases hc with
  | call | ret | jmp | jeqTaken | jneTaken => exact .inr ⟨_, rfl⟩
  | _ => exact .inl rfl

/-- The run state changes by a HLT alone. -/
theorem Completes.run {s t : State} {i : Instr} (hc : Completes s i t) :
    t.run = s.run ∨ i = .hlt ∧ t.run = .halted := by
  cases hc with
  | hlt => exact .inr ⟨rfl, rfl⟩
  | _ => exact .inl rfl

theorem Completes.fault {s t : State} {i : Instr} (hc : Completes s i t) : t.fault = s.fault := by
  cases hc <;> rfl

end Sys2Proof.Proofs
end

section
/-! PROOFS. What a step of a running core can do: it takes the fault that fetching or executing raises, or it leaves the
state with which the fetched instruction completes. -/

namespace Sys2Proof.Proofs

open Sys2Proof Sys2Proof.Machine

/-- The four ways the decoder fails, in the order of 40_engine_cycle.md R110. -/
theorem decodeFrom_error {ε : Type} {read : Nat → Except ε Byte} {unknown : Byte → ε} {e : ε}
    (h : decodeFrom read unknown = .error e) :
    read 0 = .error e ∨
    (∃ op, read 0 = .ok op ∧ opcodeOfByte op = none ∧ e = unknown op) ∨
    (∃ op k, read 0 = .ok op ∧ opcodeOfByte op = some k ∧ readOperand1 read (opcodeLength k) = .error e) ∨
    (∃ op k o, read 0 = .ok op ∧ opcodeOfByte op = some k ∧ readOperand1 read (opcodeLength k) = .ok o ∧
      readOperand2 read (opcodeLength k) = .error e) := by
  unfold decodeFrom at h
  split at h
  · cases h
    exact .inl ‹_›
  · split at h
    · cases h
      exact .inr (.inl ⟨_, ‹_›, ‹_›, rfl⟩)
    · split at h
      · cases h
        exact .inr (.inr (.inl ⟨_, _, ‹_›, ‹_›, ‹_›⟩))
      · split at h
        · cases h
          exact .inr (.inr (.inr ⟨_, _, _, ‹_›, ‹_›, ‹_›, ‹_›⟩))
        · cases h

theorem readOperand1_error {ε : Type} {read : Nat → Except ε Byte} {n : Nat} {e : ε}
    (h : readOperand1 read n = .error e) : read 1 = .error e := by
  unfold readOperand1 at h
  split at h
  · exact h
  · cases h

/-- Where byte 2 is missing, byte 1 has been read before it. -/
theorem readOperand2_error {ε : Type} {read : Nat → Except ε Byte} {n : Nat} {o : Byte} {e : ε}
    (h1 : readOperand1 read n = .ok o) (h2 : readOperand2 read n = .error e) :
    read 1 = .ok o ∧ read 2 = .error e := by
  unfold readOperand2 at h2
  split at h2
  · subst n
    exact ⟨h1, h2⟩
  · cases h2

theorem fetchByte_error {s : State} {k : Nat} {r : Raise} (h : fetchByte s k = .error r) :
    256 ≤ s.pc.toNat + k ∧ r = raiseOutOfBounds ((s.pc.toNat + k : Nat) : Int) := by
  rcases Nat.lt_or_ge (s.pc.toNat + k) 256 with hk | hk
  · rw [fetchByte_inside hk] at h
    cases h
  · rw [fetchByte_outside hk] at h
    cases h
    exact ⟨hk, rfl⟩

/-- With `pc` in 0..256 a fetch fails at address 256, or at an opcode byte that is in no row. -/
theorem fetch_error {s : State} {r : Raise} (hpc : s.pc.toNat ≤ 256) (h : fetch s = .error r) :
    r = raiseOutOfBounds 256 ∨ ∃ op, opcodeOfByte op = none ∧ r = raiseUnknownInstruction op := by
  have atEnd : ∀ {k : Nat}, fetchByte s k = .error r → s.pc.toNat + k ≤ 256 → r = raiseOutOfBounds 256 := by
    intro k hk hle
    obtain ⟨hge, rfl⟩ := fetchByte_error hk
    rw [Nat.le_antisymm hle hge]
    rfl
  rcases decodeFrom_error h with h0 | ⟨op, -, hop, rfl⟩ | ⟨op, k, h0, -, h1⟩ | ⟨op, k, o, -, -, h1, h2⟩
  · exact .inl (atEnd h0 hpc)
  · exact .inr ⟨op, hop, rfl⟩
  · have hlt := (fetchByte_ok h0).1
    exact .inl (atEnd (readOperand1_error h1) hlt)
  · obtain ⟨hread, hmissing⟩ := readOperand2_error h1 h2
    have hlt := (fetchByte_ok hread).1
    exact .inl (atEnd hmissing hlt)

/-- A step of `s`, running, raises `r`: in the fetch, or in the instruction fetched. -/
def StepRaises (s : State) (r : Raise) : Prop := fetch s = .error r ∨ ∃ i, fetch s = .ok i ∧ Raises s i r

theorem step_of_stepRaises {s : State} {r : Raise} (hrun : s.run = .running) (h : StepRaises s r) :
    step s = .next (takeFault r s) := by
  rw [step_running hrun]
  rcases h with hf | ⟨i, hf, hr⟩
  · rw [hf, attempt_error]
  · rw [hf, attempt_ok, exec_of_raises hr]

theorem step_of_completes {s t : State} {i : Instr} (hrun : s.run = .running) (hf : fetch s = .ok i)
    (hc : Completes s i t) : step s = .next t := by
  rw [step_running hrun, hf, attempt_ok, exec_of_completes hc]

/-- The three things a step can be: a rest, a fault, a completed instruction. -/
theorem step_next_cases {s t : State} (h : step s = .next t) :
    (s.run ≠ .running ∧ t = s) ∨
    (s.run = .running ∧ ∃ r, StepRaises s r ∧ t = takeFault r s) ∨
    (s.run = .running ∧ ∃ i, fetch s = .ok i ∧ Completes s i t) := by
  by_cases hrun : s.run = .running
  · refine .inr ?_
    rcases step_cases hrun with ⟨r, hf, hs⟩ | ⟨i, hf, hs⟩
    · cases hs.symm.trans h
      exact .inl ⟨hrun, r, .inl hf, rfl⟩
    · rcases exec_next_iff.1 (hs.symm.trans h) with hc | ⟨r, hr, rfl⟩
      · exact .inr ⟨hrun, i, hf, hc⟩
      · exact .inl ⟨hrun, r, .inr ⟨i, hf, hr⟩, rfl⟩
  · cases (step_stopped hrun).symm.trans h
    exact .inl ⟨hrun, rfl⟩

/-- What a fetch answers depends on memory and `pc` alone. -/
theorem fetch_congr {s u : State} (hmem : u.mem = s.mem) (hpc : u.pc = s.pc) : fetch u = fetch s := by
  have hbyte : fetchByte u = fetchByte s := by
    funext k
    simp [fetchByte, memRead, byteAt, hmem, hpc]
  rw [fetch, fetch, hbyte]

/-- What an instruction raises depends on `sp` and `pc` alone. -/
theorem Raises.congr {s u : State} {i : Instr} {r : Raise} (h : Raises s i r) (hsp : u.sp = s.sp)
    (hpc : u.pc = s.pc) : Raises u i r := by
  cases h with
  | operand h => exact .operand h
  | pushRange h h0 => exact .pushRange h (hsp.trans h0)
  | callRange h h0 => exact .callRange h (hsp.trans h0)
  | popRange h h255 => exact .popRange h (hsp.trans h255)
  | retRange h255 => exact .retRange (hsp.trans h255)
  | callReturn h h0 h254 => exact hpc ▸ .callReturn h (hsp ▸ h0) (hpc ▸ h254)

/-- What a step raises depends on memory, `sp` and `pc` alone. -/
theorem StepRaises.congr {s u : State} {r : Raise} (h : StepRaises s r) (hmem : u.mem = s.mem) (hsp : u.sp = s.sp)
    (hpc : u.pc = s.pc) : StepRaises u r := by
  rw [StepRaises, fetch_congr hmem hpc]
  exact h.imp_right fun ⟨i, hf, hr⟩ => ⟨i, hf, hr.congr hsp hpc⟩

end Sys2Proof.Proofs
end

section
/-! PROOFS. 10_state.md: the state, its invariant, and which instruction changes which piece of it. -/

namespace Sys2Proof.Proofs

open Sys2Proof Sys2Proof.Machine Sys2Proof.Statements

/-! ### The invariant -/

/-- The fault record that taking `r` leaves is one of 60_exceptions.md R192. -/
def legalRaise (r : Raise) : Bool := faultInfoLegal { cause := r.cause, info := r.info, addr := 0#9 }

theorem legalRaise_outOfBounds_256 : legalRaise (raiseOutOfBounds 256) = true := by decide

theorem legalRaise_outOfBounds_neg : legalRaise (raiseOutOfBounds (-1)) = true := by decide

theorem legalRaise_unknownInstruction {op : Byte} (h : opcodeOfByte op = none) :
    legalRaise (raiseUnknownInstruction op) = true := by
  have hlt := op.isLt
  simp [legalRaise, faultInfoLegal, raiseUnknownInstruction, h]
  omega

theorem legalRaise_invalidRegister {o : Byte} (h : 8 ≤ o.toNat) : legalRaise (raiseInvalidRegister o) = true := by
  have hlt := o.isLt
  simp [legalRaise, faultInfoLegal, raiseInvalidRegister]
  omega

/-- A register operand that the check rejects is 8 or more (10_state.md R24). -/
theorem firstBadOperand_ge {i : Instr} {o : Byte} (h : firstBadOperand i = some o) : 8 ≤ o.toNat := by
  simpa [isRegIndex] using List.find?_some h

/-- An instruction that lies inside memory raises legal faults only: CALL's return address is at most 256. -/
theorem Raises.legal {s : State} {i : Instr} {r : Raise} (hin : s.pc.toNat + instrLength i ≤ 256)
    (h : Raises s i r) : legalRaise r = true := by
  cases h with
  | operand h => exact legalRaise_invalidRegister (firstBadOperand_ge h)
  | pushRange | callRange => exact legalRaise_outOfBounds_neg
  | popRange | retRange => exact legalRaise_outOfBounds_256
  | callReturn _ _ hpc =>
    have hle : s.pc.toNat + 2 ≤ 256 := hin
    have h254 : s.pc.toNat = 254 := by omega
    rw [h254]
    exact legalRaise_outOfBounds_256

theorem StepRaises.legal {s : State} {r : Raise} (hpc : s.pc.toNat ≤ 256) (h : StepRaises s r) :
    legalRaise r = true := by
  rcases h with hf | ⟨i, hf, hr⟩
  · rcases fetch_error hpc hf with rfl | ⟨op, hop, rfl⟩
    · exact legalRaise_outOfBounds_256
    · exact legalRaise_unknownInstruction hop
  · exact hr.legal (fetch_inside hf).1

/-- A core that has not faulted has no fault record. -/
theorem faultRecorded_iff {s : State} (h : s.run ≠ .faulted) : faultRecorded s = true ↔ s.fault = none := by
  cases hrun : s.run with
  | faulted => exact absurd hrun h
  | running | halted => cases hfault : s.fault <;> simp [faultRecorded, hrun, hfault]

/-- A fault just taken is recorded as it should be exactly when it is legal: its address is the one `pc` still holds. -/
theorem faultRecorded_takeFault (r : Raise) (s : State) : faultRecorded (takeFault r s) = legalRaise r := by
  simp [faultRecorded, legalRaise, faultInfoLegal]

/-- Taking the fault that a step raises keeps the invariant. -/
theorem inv_takeFault {s : State} {r : Raise} (hinv : s.Inv) (hr : StepRaises s r) : (takeFault r s).Inv := by
  obtain ⟨hmem, hpc, hflags, -⟩ := hinv
  exact ⟨hmem, hpc, hflags, (faultRecorded_takeFault r s).trans (hr.legal hpc)⟩

theorem flagsExclusive_compareFlags (x y : Byte) : flagsExclusive (compareFlags x y) = true := by
  rcases Nat.lt_trichotomy x.toNat y.toNat with h | h | h <;> simp [flagsExclusive, compareFlags] <;> omega

/-- A byte as a target, and the next instruction behind one that lies inside memory, are in 0..256. -/
theorem Completes.pc_le {s t : State} {i : Instr} (hin : s.pc.toNat + instrLength i ≤ 256) (hc : Completes s i t) :
    t.pc.toNat ≤ 256 := by
  rcases hc.pc with h | ⟨b, h⟩
  · rw [h, BitVec.toNat_add, BitVec.toNat_ofNat]
    omega
  · have hlt := b.isLt
    rw [h, targetOf, BitVec.toNat_setWidth]
    omega

/-- A completed instruction keeps the invariant, piece by piece. -/
theorem inv_completes {s t : State} {i : Instr} (hinv : s.Inv) (hrun : s.run = .running)
    (hin : s.pc.toNat + instrLength i ≤ 256) (hc : Completes s i t) : t.Inv := by
  obtain ⟨hmem, -, hflags, hfault⟩ := hinv
  refine ⟨?mem, hc.pc_le hin, ?flags, ?fault⟩
  case mem =>
    rcases hc.mem with h | ⟨a, v, ha, h⟩
    · rwa [h]
    · rw [h]
      exact wf_write ha hmem
  case flags =>
    rcases hc.flags with h | ⟨_, _, x, y, -, h⟩
    · rwa [h]
    · rw [h]
      exact flagsExclusive_compareFlags x y
  case fault =>
    have hnone : t.fault = none := by rw [hc.fault, (faultRecorded_iff (by simp [hrun])).1 hfault]
    refine (faultRecorded_iff ?_).2 hnone
    rcases hc.run with h | ⟨-, h⟩ <;> simp [h, hrun]

/-- Settles O56: a resting core does not change, a fault is legal because `pc` is in 0..256, and an instruction that was
fetched lies inside memory. -/
theorem stepKeepsTheInvariant : Obligations.StepKeepsTheInvariant := by
  intro s t hinv hstep
  rcases step_next_cases hstep with ⟨-, rfl⟩ | ⟨-, r, hr, rfl⟩ | ⟨hrun, i, hf, hc⟩
  · exact hinv
  · exact inv_takeFault hinv hr
  · exact inv_completes hinv hrun (fetch_inside hf).1 hc

/-- Settles O55: memory is empty, `pc` 0, all flags clear, and nothing is recorded. -/
theorem resetMeetsTheInvariant : Obligations.ResetMeetsTheInvariant :=
  ⟨reset_mem_wf, by decide, by decide, (faultRecorded_iff (by decide)).2 rfl⟩

/-- Settles O53: memory is the empty list, so every cell reads as an unlisted one. -/
theorem resetLeavesTheStatedValues : Obligations.ResetLeavesTheStatedValues :=
  ⟨fun _ _ => rfl, by decide, rfl, rfl, rfl, rfl, rfl, rfl, rfl⟩

/-! ### Which instruction changes what -/

/-- Settles O41: the only instruction that completes with another run state is HLT, and its opcode byte was fetched at
`pc`. -/
theorem onlyHltHalts : Obligations.OnlyHltHalts := by
  intro s t hrun hstep hhalted
  rcases step_next_cases hstep with ⟨hstopped, -⟩ | ⟨-, r, -, rfl⟩ | ⟨-, i, hf, hc⟩
  · exact absurd hrun hstopped
  · cases hhalted
  · rcases hc.run with h | ⟨rfl, -⟩
    · rw [h, hrun] at hhalted
      cases hhalted
    · obtain ⟨hin, hop⟩ := fetch_inside hf
      exact ⟨hrun, Nat.le_of_succ_le_succ hin, hop⟩

/-- Settles O42: a fault leaves the flags, and a completed instruction that is no CMP does. -/
theorem onlyCmpWritesFlags : Obligations.OnlyCmpWritesFlags := by
  intro i s t hexec hcmp
  rcases exec_next_iff.1 hexec with hc | ⟨r, -, rfl⟩
  · rcases hc.flags with h | ⟨a, b, -, -, hi, -⟩
    · exact h
    · exact absurd hi (hcmp a b)
  · rfl

/-- Settles O46: a fault leaves `sp`, and so does every completed instruction but the four of the stack. -/
theorem onlyStackInstructionsMoveSp : Obligations.OnlyStackInstructionsMoveSp := by
  intro i s t hexec hpush hpop hcall hret
  rcases exec_next_iff.1 hexec with hc | ⟨r, -, rfl⟩
  · cases hc with
    | push => exact absurd rfl (hpush _)
    | pop => exact absurd rfl (hpop _)
    | call => exact absurd rfl (hcall _)
    | ret => exact absurd rfl hret
    | _ => rfl
  · rfl

/-- Settles O47: a completed instruction sets at most its destination, which is another register than the one read. -/
theorem onlyTheNamedDestinationChanges : Obligations.OnlyTheNamedDestinationChanges := by
  intro i s t r hexec hdest
  rcases exec_next_iff.1 hexec with hc | ⟨_, -, rfl⟩
  · rcases hc.regs with h | ⟨o, ho, v, hi, h⟩
    · rw [h]
    · have hne : o.toNat ≠ r.val := by
        intro heq
        rw [hi, ← heq, BitVec.ofNat_toNat, BitVec.setWidth_eq] at hdest
        exact hdest rfl
      rw [h]
      exact Vector.getElem_set_ne ho r.isLt hne
  · rfl

/-- Settles O37: the register is valid, so the range of `sp` is what the instruction fails on. -/
theorem stackRangeFaults : Obligations.StackRangeFaults := by
  intro r s hr
  constructor
  · intro h0
    exact ⟨exec_of_raises (.pushRange hr h0), exec_of_raises (.callRange hr h0)⟩
  · intro h255
    exact ⟨exec_of_raises (.popRange hr h255), exec_of_raises (.retRange h255)⟩

/-! ### Less-Than and Greater-Than -/

/-- A state with its Less-Than and Greater-Than flags at given values. -/
def withOrderFlags (s : State) (l g : Bool) : State :=
  { s with flags := { s.flags with lessThan := l, greaterThan := g } }

/-- The same instruction completes whatever Less-Than and Greater-Than are, and all else it leaves is the same: CMP
overwrites them, every other instruction passes them on. -/
theorem Completes.ignores_orderFlags {s t : State} {i : Instr} (l g : Bool) (hc : Completes s i t) :
    ∃ l' g', Completes (withOrderFlags s l g) i (withOrderFlags t l' g') := by
  cases hc with
  | cmp ha hb => exact ⟨_, _, .cmp ha hb⟩
  | _ => exact ⟨l, g, by constructor <;> assumption⟩

/-- Settles O43: the fetch, the checks and every way to complete are the same with the two flags at other values. -/
theorem lessAndGreaterAreNeverRead : Obligations.LessAndGreaterAreNeverRead := by
  intro s t l g hstep
  rcases step_next_cases hstep with ⟨hstopped, rfl⟩ | ⟨hrun, r, hr, rfl⟩ | ⟨hrun, i, hf, hc⟩
  · exact ⟨l, g, step_stopped hstopped⟩
  · exact ⟨l, g, step_of_stepRaises hrun (hr.congr rfl rfl rfl)⟩
  · obtain ⟨l', g', hc'⟩ := hc.ignores_orderFlags l g
    exact ⟨l', g', step_of_completes hrun ((fetch_congr rfl rfl).trans hf) hc'⟩

/-! ### The output -/

/-- A state with another output. -/
def withOut (s : State) (o : List Byte) : State := { s with out := o }

/-- What a completed instruction appends to the output: the register of a PRN, and nothing for any other. -/
def appended (s : State) : Instr → List Byte
  | .prn r => if h : r.toNat < 8 then [s.regs[r.toNat]'h] else []
  | _ => []

/-- The same instruction completes whatever the output is, appends the same to it, and leaves all else the same. -/
theorem Completes.ignores_out {s t : State} {i : Instr} (o : List Byte) (hc : Completes s i t) :
    Completes (withOut s o) i (withOut t (o ++ appended s i)) := by
  cases hc with
  | prn h =>
    rw [appended, dif_pos h]
    exact .prn h
  | _ =>
    change Completes _ _ (withOut _ (o ++ []))
    rw [List.append_nil]
    constructor <;> assumption

/-- A running core starts with the opcode byte of a row exactly when the instruction fetched is of that row. -/
theorem startsWith_iff_of_fetch {s : State} {i : Instr} (hrun : s.run = .running) (hf : fetch s = .ok i) (k : Opcode) :
    startsWith s (opcodeByte k) ↔ opcodeOf i = k := by
  obtain ⟨hin, hop⟩ := fetch_inside hf
  constructor
  · rintro ⟨-, -, hk⟩
    rw [hop, ← opcodeOfByte_eq_some_iff, opcodeOfByte_opcodeByte] at hk
    exact (Option.some.inj hk).symm
  · rintro rfl
    have hlen : 1 ≤ instrLength i := by
      rcases opcodeLength_cases (opcodeOf i) with h | h | h <;> rw [instrLength, h] <;> decide
    exact ⟨hrun, by omega, hop⟩

/-- The register operand of a fetched PRN is the byte behind its opcode byte. -/
theorem operand_of_fetch_prn {s : State} {r : Byte} (hf : fetch s = .ok (.prn r)) : r = o1 s := by
  obtain ⟨_, k, a, b, -, -, h1, -, hi⟩ := decodeFrom_ok hf
  obtain rfl : k = .prn := (opcodeOf_buildInstr k a b).symm.trans (congrArg opcodeOf hi).symm
  cases hi
  rw [readOperand1, if_pos (by decide)] at h1
  exact (fetchByte_ok h1).2

/-- A step from `s` to `t` that appends `e` appends nothing, or it is a PRN that completes and `e` is the byte of its
register (10_state.md R35). -/
def AppendsByPrn (s t : State) (e : List Byte) : Prop :=
  (e = [] ∧ ¬ (startsWith s 0x47#8 ∧ t.run = .running)) ∨
  ∃ h : (o1 s).toNat < 8, e = [s.regs[(o1 s).toNat]'h] ∧ startsWith s 0x47#8 ∧ t.run = .running

theorem Completes.appendsByPrn {s t : State} {i : Instr} (hrun : s.run = .running) (hf : fetch s = .ok i)
    (hc : Completes s i t) : AppendsByPrn s t (appended s i) := by
  have hstart : startsWith s 0x47#8 ↔ opcodeOf i = .prn := startsWith_iff_of_fetch hrun hf .prn
  cases hc with
  | prn h =>
    cases operand_of_fetch_prn hf
    exact .inr ⟨h, dif_pos h, hstart.2 rfl, hrun⟩
  | _ => exact .inl ⟨rfl, fun ⟨hprn, _⟩ => nomatch hstart.1 hprn⟩

/-- What a step appends to the output does not depend on the output, and nothing else it does depends on it. -/
theorem step_appendsByPrn {s t : State} (hstep : step s = .next t) :
    ∃ e, AppendsByPrn s t e ∧ ∀ o, step (withOut s o) = .next (withOut t (o ++ e)) := by
  rcases step_next_cases hstep with ⟨hstopped, rfl⟩ | ⟨hrun, r, hr, rfl⟩ | ⟨hrun, i, hf, hc⟩
  · refine ⟨[], .inl ⟨rfl, fun ⟨_, hrun⟩ => hstopped hrun⟩, fun o => ?_⟩
    rw [List.append_nil]
    exact step_stopped hstopped
  · refine ⟨[], .inl ⟨rfl, fun ⟨_, hrun⟩ => nomatch hrun⟩, fun o => ?_⟩
    rw [List.append_nil]
    exact step_of_stepRaises hrun (hr.congr rfl rfl rfl)
  · exact ⟨appended s i, hc.appendsByPrn hrun hf,
      fun o => step_of_completes hrun ((fetch_congr rfl rfl).trans hf) (hc.ignores_out o)⟩

/-- Settles O44: the step is the same from every output, its own among them, and what it appends is a PRN's. -/
theorem outputGrowsByPrnAloneAndIsNeverRead : Obligations.OutputGrowsByPrnAloneAndIsNeverRead := by
  refine ⟨rfl, fun s t o hstep => ?_⟩
  obtain ⟨e, he, hall⟩ := step_appendsByPrn hstep
  have hout : t = withOut t (s.out ++ e) := by
    injection hstep.symm.trans (hall s.out)
  refine ⟨e, congrArg State.out hout, hall o, ?_⟩
  rcases he with ⟨rfl, hno⟩ | ⟨h, rfl, hprn, hrun⟩
  · exact ⟨Nat.zero_le 1, iff_of_false Nat.zero_ne_one hno, fun _ h1 h2 => absurd ⟨h1, h2⟩ hno⟩
  · exact ⟨Nat.le_refl 1, iff_of_true rfl ⟨hprn, hrun⟩, fun _ _ _ => rfl⟩

end Sys2Proof.Proofs
end

section
/-! PROOFS. 20_memory.md: which instructions write memory, and memory as its 256 bytes. -/

namespace Sys2Proof.Proofs

open Sys2Proof Sys2Proof.Machine

/-- Settles O45: a fault leaves memory, and so does every completed instruction but PUSH and CALL. -/
theorem onlyPushAndCallWriteMemory : Obligations.OnlyPushAndCallWriteMemory := by
  intro i s t hexec hpush hcall
  rcases exec_next_iff.1 hexec with hc | ⟨r, -, rfl⟩
  · cases hc with
    | push => exact absurd rfl (hpush _)
    | call => exact absurd rfl (hcall _)
    | _ => rfl
  · rfl

/-! ### Canonical memories are equal when they read alike -/

theorem read_head (c : Host.Cell) (m : Memory) : Memory.read (c :: m) c.1 = c.2 := if_pos rfl

/-- In canonical form every address below the first is below them all. -/
theorem above_of_lt_head {a : Nat} {c : Host.Cell} {m : Memory} (h : Memory.wf (c :: m) = true) (hlt : a < c.1) :
    Memory.above a (c :: m) := by
  obtain ⟨⟨-, -, hab⟩, -⟩ := (wf_cons c m).1 h
  exact List.forall_mem_cons.2 ⟨hlt, above_trans hab hlt.le⟩

/-- Without its first cell a canonical memory reads the same, but for that cell, which is no longer listed. -/
theorem read_tail {a : Nat} {c : Host.Cell} {m : Memory} (h : Memory.wf (c :: m) = true) :
    Memory.read m a = if c.1 = a then Memory.unlisted else Memory.read (c :: m) a := by
  obtain ⟨⟨-, -, hab⟩, -⟩ := (wf_cons c m).1 h
  split
  next hca => exact read_of_above (hca ▸ hab)
  next hca => exact (if_neg hca).symm

/-- A memory that reads as a canonical one does lists an address no higher than the first of that one. -/
theorem not_above_of_reads_alike {c : Host.Cell} {m n : Memory} (hm : Memory.wf (c :: m) = true)
    (hread : ∀ a : Nat, a < 256 → Memory.read (c :: m) a = Memory.read n a) : ¬ Memory.above c.1 n := by
  intro hab
  obtain ⟨⟨hc, hlisted, -⟩, -⟩ := (wf_cons c m).1 hm
  have hread := hread c.1 hc
  rw [read_head, read_of_above hab] at hread
  exact hlisted hread

/-- Of two canonical memories that read alike, neither lists a higher first address than the other. -/
theorem head_le_of_reads_alike {c d : Host.Cell} {m n : Memory} (hm : Memory.wf (c :: m) = true)
    (hn : Memory.wf (d :: n) = true)
    (hread : ∀ a : Nat, a < 256 → Memory.read (c :: m) a = Memory.read (d :: n) a) : d.1 ≤ c.1 :=
  Nat.le_of_not_lt fun hlt => not_above_of_reads_alike hm hread (above_of_lt_head hn hlt)

/-- Settles O52, by induction on both lists of cells: a first cell that only one memory lists would be read as unlisted
in the other, so the first cells are the same, and the rests read alike. -/
theorem canonicalMemoryIsItsBytes : Obligations.CanonicalMemoryIsItsBytes := by
  intro m
  induction m with
  | nil =>
    rintro (_ | ⟨d, n⟩) - hn hread
    · rfl
    · exact absurd (List.forall_mem_nil _) (not_above_of_reads_alike hn fun a ha => (hread a ha).symm)
  | cons c m ih =>
    rintro (_ | ⟨d, n⟩) hm hn hread
    · exact absurd (List.forall_mem_nil _) (not_above_of_reads_alike hm hread)
    · obtain ⟨⟨hc, -, -⟩, -⟩ := (wf_cons c m).1 hm
      have haddr : c.1 = d.1 := Nat.le_antisymm
        (head_le_of_reads_alike hn hm fun a ha => (hread a ha).symm) (head_le_of_reads_alike hm hn hread)
      have hbyte : c.2 = d.2 :=
        calc c.2 = Memory.read (c :: m) c.1 := (read_head c m).symm
          _ = Memory.read (d :: n) d.1 := by rw [hread c.1 hc, haddr]
          _ = d.2 := read_head d n
      have hrest : m = n := ih n (wf_tail hm) (wf_tail hn) fun a ha => by
        rw [read_tail hm, read_tail hn, haddr, hread a ha]
      rw [Prod.ext haddr hbyte, hrest]

end Sys2Proof.Proofs
end

section
/-! PROOFS. 30_encoding.md: decoding undoes encoding, on one instruction and on whole programs, and fails at an opcode
byte that is in no row of the table. -/

namespace Sys2Proof.Proofs

open Sys2Proof Sys2Proof.Machine Sys2Proof.Statements

/-! ### The decoder, way by way -/

/-- Where all the bytes of a row are read, the decoder builds the instruction of that row. -/
theorem decodeFrom_of_reads {ε : Type} {read : Nat → Except ε Byte} {unknown : Byte → ε} {op o1 o2 : Byte}
    {k : Opcode} (h0 : read 0 = .ok op) (hk : opcodeOfByte op = some k)
    (h1 : readOperand1 read (opcodeLength k) = .ok o1) (h2 : readOperand2 read (opcodeLength k) = .ok o2) :
    decodeFrom read unknown = .ok (buildInstr k o1 o2) := by
  simp [decodeFrom, h0, hk, h1, h2]

/-- An opcode byte in no row ends decoding before an operand is read (40_engine_cycle.md R102). -/
theorem decodeFrom_of_unknown {ε : Type} {read : Nat → Except ε Byte} {unknown : Byte → ε} {op : Byte}
    (h0 : read 0 = .ok op) (hop : opcodeOfByte op = none) : decodeFrom read unknown = .error (unknown op) := by
  simp [decodeFrom, h0, hop]

theorem byteOf_eq_ok_iff {bytes : List Byte} {k : Nat} {b : Byte} : byteOf bytes k = .ok b ↔ bytes[k]? = some b := by
  cases h : bytes[k]? <;> simp [byteOf, h]

/-- What `decode` answers is what the decoder reads, and the bytes behind its length. -/
theorem decode_eq_ok_iff {bytes rest : List Byte} {i : Instr} :
    decode bytes = .ok (i, rest) ↔
      decodeFrom (byteOf bytes) .unknownInstruction = .ok i ∧ rest = bytes.drop (instrLength i) := by
  cases h : decodeFrom (byteOf bytes) .unknownInstruction with
  | error e => simp [decode, h]
  | ok j =>
    simp only [decode, h, Except.ok.injEq, Prod.mk.injEq]
    constructor <;> rintro ⟨rfl, rfl⟩ <;> exact ⟨rfl, rfl⟩

/-! ### Encoding, then decoding -/

theorem length_encode (i : Instr) : (encode i).length = instrLength i := by
  cases i <;> rfl

/-- The first operand of an encoding is read where its format has one. -/
theorem readOperand1_encode (i : Instr) (rest : List Byte) :
    readOperand1 (byteOf (encode i ++ rest)) (instrLength i) = .ok ((operandBytes i)[0]?.getD 0) := by
  cases i <;> rfl

/-- The second operand of an encoding is read where its format has one. -/
theorem readOperand2_encode (i : Instr) (rest : List Byte) :
    readOperand2 (byteOf (encode i ++ rest)) (instrLength i) = .ok ((operandBytes i)[1]?.getD 0) := by
  cases i <;> rfl

/-- An encoding decodes to its instruction, whatever follows it. -/
theorem decode_encode_append (i : Instr) (rest : List Byte) : decode (encode i ++ rest) = .ok (i, rest) := by
  have hread : decodeFrom (byteOf (encode i ++ rest)) .unknownInstruction =
      .ok (buildInstr (opcodeOf i) ((operandBytes i)[0]?.getD 0) ((operandBytes i)[1]?.getD 0)) :=
    decodeFrom_of_reads rfl (opcodeOfByte_opcodeByte _) (readOperand1_encode i rest) (readOperand2_encode i rest)
  rw [buildInstr_operandBytes] at hread
  exact decode_eq_ok_iff.2 ⟨hread, (List.drop_left' (length_encode i)).symm⟩

/-- One more instruction in front of a program that decodes, and one more to read. -/
theorem decodeProgram_encode_append (i : Instr) {fuel : Nat} {bytes : List Byte} {is : List Instr}
    (h : decodeProgram fuel bytes = .ok is) : decodeProgram (fuel + 1) (encode i ++ bytes) = .ok (i :: is) := by
  rw [decodeProgram, decode_encode_append]
  · simp [h]
  · exact List.cons_ne_nil _ _

/-- Settles O3, by induction on the program: its first encoding decodes to its first instruction and leaves the
encoding of the rest. -/
theorem encodedProgramsDecodeToThemselves : Obligations.EncodedProgramsDecodeToThemselves := by
  intro is
  induction is with
  | nil =>
    intro fuel _
    cases fuel <;> rfl
  | cons i is ih =>
    rintro (_ | fuel) hfuel
    · exact absurd hfuel (Nat.not_succ_le_zero _)
    · exact decodeProgram_encode_append i (ih fuel (Nat.le_of_succ_le_succ hfuel))

/-! ### Decoding, then encoding -/

/-- The encoding of what a row builds: the opcode byte and as many operands as the length tells. -/
theorem encode_buildInstr (k : Opcode) (o1 o2 : Byte) :
    encode (buildInstr k o1 o2) = [opcodeByte k, o1, o2].take (opcodeLength k) := by
  cases k <;> rfl

/-- The bytes the decoder reads are the first ones of the list, as many as the length tells. -/
theorem take_of_reads {bytes : List Byte} {op o1 o2 : Byte} {n : Nat} (hn : n = 1 ∨ n = 2 ∨ n = 3)
    (h0 : byteOf bytes 0 = .ok op) (h1 : readOperand1 (byteOf bytes) n = .ok o1)
    (h2 : readOperand2 (byteOf bytes) n = .ok o2) : bytes.take n = [op, o1, o2].take n := by
  rw [byteOf_eq_ok_iff] at h0
  rcases hn with rfl | rfl | rfl
  · simp [List.take_add_one, h0]
  · have h1 : bytes[1]? = some o1 := byteOf_eq_ok_iff.1 h1
    simp [List.take_add_one, h0, h1]
  · have h1 : bytes[1]? = some o1 := byteOf_eq_ok_iff.1 h1
    have h2 : bytes[2]? = some o2 := byteOf_eq_ok_iff.1 h2
    simp [List.take_add_one, h0, h1, h2]

/-- Settles O4: the bytes read are the encoding, and the rest is what stands behind as many bytes. -/
theorem whatDecodesIsTheEncoding : Obligations.WhatDecodesIsTheEncoding := by
  intro bytes rest i h
  obtain ⟨hread, rfl⟩ := decode_eq_ok_iff.1 h
  obtain ⟨op, k, o1, o2, h0, hk, h1, h2, rfl⟩ := decodeFrom_ok hread
  obtain rfl := opcodeByte_of_opcodeOfByte hk
  have htake : encode (buildInstr k o1 o2) = bytes.take (opcodeLength k) :=
    (encode_buildInstr k o1 o2).trans (take_of_reads (opcodeLength_cases k) h0 h1 h2).symm
  rw [htake, instrLength, opcodeOf_buildInstr, List.take_append_drop]

/-! ### The opcode byte -/

/-- The first byte of what decodes is found in the table as the row of the instruction. -/
theorem opcodeOfByte_of_decode {op : Byte} {xs rest : List Byte} {i : Instr} (h : decode (op :: xs) = .ok (i, rest)) :
    opcodeOfByte op = some (opcodeOf i) := by
  rw [(List.cons.inj (whatDecodesIsTheEncoding _ _ _ h)).1]
  exact opcodeOfByte_opcodeByte _

/-- The bytes that no row of the table has are those outside the opcode column of 30_encoding.md R84. -/
theorem opcodeOfByte_eq_none_iff (b : Byte) : opcodeOfByte b = none ↔ b ∉ listed := by
  have hcolumn : listed = opcodes.map opcodeByte := rfl
  simp [hcolumn, opcodeOfByte]

/-- Settles O5: one opcode byte is of one row, which has one length; a byte of no row is unknown. -/
theorem opcodeByteAloneTellsTheLength : Obligations.OpcodeByteAloneTellsTheLength := by
  refine ⟨fun op xs ys xs' ys' i j hi hj => ?sameLength, fun op xs hop => ?unknown⟩
  case sameLength =>
    have hrow : opcodeOf i = opcodeOf j :=
      Option.some.inj ((opcodeOfByte_of_decode hi).symm.trans (opcodeOfByte_of_decode hj))
    rw [length_encode, length_encode, instrLength, instrLength, hrow]
  case unknown =>
    have hread : decodeFrom (byteOf (op :: xs)) .unknownInstruction = .error (.unknownInstruction op) :=
      decodeFrom_of_unknown rfl ((opcodeOfByte_eq_none_iff op).2 hop)
    rw [decode, hread]

/-- A fetch at an opcode byte of no row raises `UnknownInstruction` with that byte. -/
theorem fetch_of_unlisted {s : State} (hpc : s.pc.toNat < 256) (hop : byteAt s s.pc.toNat ∉ listed) :
    fetch s = .error (raiseUnknownInstruction (byteAt s s.pc.toNat)) :=
  decodeFrom_of_unknown (fetchByte_inside hpc) ((opcodeOfByte_eq_none_iff _).2 hop)

/-! ### How many bytes are in no row -/

/-- The 256 bytes in rising order. -/
def allBytes : List Byte := (List.range 256).map (BitVec.ofNat 8)

theorem mem_allBytes (b : Byte) : b ∈ allBytes :=
  List.mem_map.2 ⟨b.toNat, List.mem_range.2 b.isLt, by simp⟩

theorem nodup_allBytes : allBytes.Nodup :=
  List.nodup_range.map_on fun m hm n hn h => by
    simpa [Nat.mod_eq_of_lt, List.mem_range.1 hm, List.mem_range.1 hn] using congrArg BitVec.toNat h

/-- Without a part of it, a list with no double entries is shorter by the length of the part. -/
theorem length_filter_notMem {l part : List Byte} (hl : l.Nodup) (hpart : part.Nodup) (hsub : part ⊆ l) :
    (l.filter fun b => decide (b ∉ part)).length = l.length - part.length := by
  have hsplit : (part ++ l.diff part).Perm l :=
    List.subperm_append_diff_self_of_count_le fun b _ => (hpart.subperm hsub).count_le b
  rw [← hl.sdiff_eq_filter, ← hsplit.length_eq, List.length_append, Nat.add_sub_cancel_left]

/-- The thirteen bytes of the opcode column are distinct, so 243 are left. -/
theorem length_unlisted : ((List.range 256).filter fun n => decide (BitVec.ofNat 8 n ∉ listed)).length = 243 :=
  calc ((List.range 256).filter fun n => decide (BitVec.ofNat 8 n ∉ listed)).length
    _ = (allBytes.filter fun b => decide (b ∉ listed)).length := by
      rw [allBytes, List.filter_map, List.length_map]
      rfl
    _ = allBytes.length - listed.length :=
      length_filter_notMem nodup_allBytes (by decide) fun b _ => mem_allBytes b
    _ = 243 := by
      rw [allBytes, List.length_map, List.length_range]
      rfl

/-- Settles O9: the fetch raises the fault, which the step takes; the bytes outside the table are counted. -/
theorem unlistedOpcodesRaiseUnknownInstruction : Obligations.UnlistedOpcodesRaiseUnknownInstruction := by
  refine ⟨?_, by decide, length_unlisted⟩
  rintro s op ⟨hrun, hpc, rfl⟩ hop
  exact step_of_stepRaises hrun (.inl (fetch_of_unlisted (Nat.lt_succ_of_le hpc) hop))

/-! ### The rows of the table, and words written out -/

/-- Settles O1: each line is the encoding of its instruction, followed by the rest. -/
theorem everyRowOfTheOpcodeTableDecodes : Obligations.EveryRowOfTheOpcodeTableDecodes := fun x y rest =>
  ⟨decode_encode_append (.ldi x y) rest, decode_encode_append (.prn x) rest, decode_encode_append .hlt rest,
    decode_encode_append (.mul x y) rest, decode_encode_append (.add x y) rest, decode_encode_append (.push x) rest,
    decode_encode_append (.pop x) rest, decode_encode_append (.call x) rest, decode_encode_append .ret rest,
    decode_encode_append (.cmp x y) rest, decode_encode_append (.jmp x) rest, decode_encode_append (.jeq x) rest,
    decode_encode_append (.jne x) rest⟩

/-- Settles O2: the words are the encodings of a program of three instructions and of three single ones. -/
theorem writtenOutWordsDecode : Obligations.WrittenOutWordsDecode :=
  ⟨encodedProgramsDecodeToThemselves [.ldi 0#8 8#8, .prn 0#8, .hlt] 3 (Nat.le_refl 3),
    decode_encode_append (.add 7#8 0#8) [], decode_encode_append (.pop 1#8) [], decode_encode_append (.call 1#8) []⟩

end Sys2Proof.Proofs
end

section
/-! PROOFS. 40_engine_cycle.md: the engine reads at `pc` what the decoder reads from the bytes there, a register operand
of 8 or more faults, and every step answers a next state, which is the same state once the core has stopped. -/

namespace Sys2Proof.Proofs

open Sys2Proof Sys2Proof.Machine Sys2Proof.Statements

/-! ### A stopped core, and every core -/

/-- A run goes on from the next state of its first step. -/
theorem run_succ_of_next {n : Nat} {s t : State} (h : step s = .next t) :
    Sys2Proof.core.run (n + 1) s = Sys2Proof.core.run n t := by
  have hcore : Sys2Proof.core.step s = .next t := h
  simp only [Host.Core.run, hcore]

/-- Settles O10, by induction on the number of steps: each rests. -/
theorem stoppedCoreNeverChanges : Obligations.StoppedCoreNeverChanges := by
  intro n s hstopped
  induction n with
  | zero => rfl
  | succ n ih => exact (run_succ_of_next (step_stopped hstopped)).trans ih

/-- Settles O11: a stopped core rests; a running one takes the fault of its fetch, or executes the instruction fetched,
which completes or raises. -/
theorem everyStepAnswersANextState : Obligations.EveryStepAnswersANextState := by
  intro s
  by_cases hrun : s.run = .running
  · rcases step_cases hrun with ⟨r, -, hs⟩ | ⟨i, -, hs⟩
    · exact ⟨_, hs⟩
    · rcases completes_or_raises s i with ⟨t, hc⟩ | ⟨r, hr⟩
      · exact ⟨t, hs.trans (exec_of_completes hc)⟩
      · exact ⟨_, hs.trans (exec_of_raises hr)⟩
  · exact ⟨s, step_stopped hrun⟩

/-! ### Register operands -/

/-- The register check rejects exactly the bytes of 8 and more (10_state.md R24). -/
theorem not_isRegIndex (o : Byte) : (!isRegIndex o) = decide (8 ≤ o.toNat) := by
  simp [isRegIndex, ← decide_not]

/-- An ill-formed instruction has a register operand that the check rejects. -/
theorem firstBadOperand_of_illFormed {i : Instr} (h : WellFormed i = false) : ∃ o, firstBadOperand i = some o := by
  obtain ⟨o, ho, hbad⟩ := List.all_eq_false.1 h
  exact Option.isSome_iff_exists.1 (List.find?_isSome.2 ⟨o, ho, by simpa using hbad⟩)

/-- Settles O36: the first operand that the check rejects is the first that is 8 or more, and it is what the instruction
faults with. -/
theorem invalidRegisterOperandsFault : Obligations.InvalidRegisterOperandsFault := by
  intro i s hbad
  obtain ⟨o, ho⟩ := firstBadOperand_of_illFormed hbad
  have hfind : i.regOperands.find? (fun x => decide (8 ≤ x.toNat)) = some o := by
    rw [← funext not_isRegIndex]
    exact ho
  exact ⟨o, hfind, exec_of_firstBadOperand s ho⟩

/-! ### The engine's decoding and that of the bytes at `pc` -/

theorem readOperand1_mapError {ε δ : Type} (f : ε → δ) (read : Nat → Except ε Byte) (n : Nat) :
    readOperand1 (fun k => (read k).mapError f) n = (readOperand1 read n).mapError f := by
  unfold readOperand1
  split <;> rfl

theorem readOperand2_mapError {ε δ : Type} (f : ε → δ) (read : Nat → Except ε Byte) (n : Nat) :
    readOperand2 (fun k => (read k).mapError f) n = (readOperand2 read n).mapError f := by
  unfold readOperand2
  split <;> rfl

/-- The decoder does not look into the errors of its reads: naming each by `f` names by `f` the one it answers. The
case split is the decoder's own. -/
theorem decodeFrom_mapError {ε δ : Type} (f : ε → δ) (read : Nat → Except ε Byte) (unknown : Byte → ε) :
    decodeFrom (fun k => (read k).mapError f) (fun b => f (unknown b)) = (decodeFrom read unknown).mapError f := by
  simp only [decodeFrom, readOperand1_mapError, readOperand2_mapError]
  cases read 0 with
  | error e => rfl
  | ok op =>
    dsimp only [Except.mapError]
    cases opcodeOfByte op with
    | none => rfl
    | some k =>
      dsimp only
      cases readOperand1 read (opcodeLength k) with
      | error e => rfl
      | ok o1 =>
        dsimp only
        cases readOperand2 read (opcodeLength k) <;> rfl

/-- What the engine raises where the bytes at `pc` decode to nothing (40_engine_cycle.md R101 to R103). -/
def decodeRaise (s : State) : DecodeError → Raise
  | .unknownInstruction op => raiseUnknownInstruction op
  | .missingByte k => raiseOutOfBounds ((s.pc.toNat : Int) + (k : Int))

/-- The engine fetches byte `k` of the bytes from `pc` to the end of memory, or raises that it lies past the end. -/
theorem fetchByte_eq (s : State) (k : Nat) : fetchByte s k = (byteOf (codeBytes s) k).mapError (decodeRaise s) := by
  rcases Nat.lt_or_ge (s.pc.toNat + k) 256 with hk | hk
  · have hbyte : (codeBytes s)[k]? = some (byteAt s (s.pc.toNat + k)) := by
      simp [codeBytes, List.getElem?_range (show k < 256 - s.pc.toNat by omega)]
    rw [fetchByte_inside hk, byteOf, hbyte]
    rfl
  · have hend : (codeBytes s)[k]? = none := List.getElem?_eq_none (by simp [codeBytes]; omega)
    rw [fetchByte_outside hk, byteOf, hend]
    rfl

/-- Fetch and decode in the engine is the decoder on the bytes at `pc`. -/
theorem fetch_eq (s : State) :
    fetch s = (decodeFrom (byteOf (codeBytes s)) .unknownInstruction).mapError (decodeRaise s) := by
  rw [← decodeFrom_mapError, fetch, funext (fetchByte_eq s)]
  rfl

theorem fetch_of_decode {s : State} {i : Instr} {rest : List Byte} (h : decode (codeBytes s) = .ok (i, rest)) :
    fetch s = .ok i := by
  rw [fetch_eq, (decode_eq_ok_iff.1 h).1]
  rfl

theorem decode_eq_error_iff {bytes : List Byte} {e : DecodeError} :
    decode bytes = .error e ↔ decodeFrom (byteOf bytes) .unknownInstruction = .error e := by
  cases h : decodeFrom (byteOf bytes) .unknownInstruction <;> simp [decode, h]

theorem fetch_of_decode_error {s : State} {e : DecodeError} (h : decode (codeBytes s) = .error e) :
    fetch s = .error (decodeRaise s e) := by
  rw [fetch_eq, decode_eq_error_iff.1 h]
  rfl

/-- With `pc` in 0..256 the first byte that is missing is the one at 256. -/
theorem decodeRaise_missingByte {s : State} {k : Nat} (hpc : s.pc.toNat ≤ 256)
    (h : decode (codeBytes s) = .error (.missingByte k)) : decodeRaise s (.missingByte k) = raiseOutOfBounds 256 := by
  rcases fetch_error hpc (fetch_of_decode_error h) with h256 | ⟨op, -, hop⟩
  · exact h256
  · cases congrArg Raise.cause hop

/-- Settles O6: the instruction fetched is the one decoded. -/
theorem stepExecutesTheDecodedInstruction : Obligations.StepExecutesTheDecodedInstruction := by
  intro s i rest hrun h
  rw [step_running hrun, fetch_of_decode h, attempt_ok]

/-- Settles O7: the step takes the fault of the fetch, which names the error of the decoder. -/
theorem stepFaultsWhereDecodingFails : Obligations.StepFaultsWhereDecodingFails := by
  intro s hrun hpc
  refine ⟨fun op h => ?unknown, fun k h => ?missing⟩
  case unknown => exact step_of_stepRaises hrun (.inl (fetch_of_decode_error h))
  case missing =>
    rw [step_of_stepRaises hrun (.inl (fetch_of_decode_error h)), decodeRaise_missingByte hpc h]
    rfl

/-! ### The opcode fetch -/

/-- Settles O8: at `pc = 256` there is no byte 0, so the fetch ends with it. -/
theorem opcodeFetchFaultsOnlyPastTheEnd : Obligations.OpcodeFetchFaultsOnlyPastTheEnd := by
  intro s
  refine ⟨congrArg (memRead s) (Int.add_zero _), fun hpc => ?inside, fun hrun hpc => ?pastTheEnd⟩
  case inside => exact memRead_inside s (by omega) (by omega)
  case pastTheEnd =>
    have hempty : codeBytes s = [] := by simp [codeBytes, hpc]
    exact (stepFaultsWhereDecodingFails s hrun hpc.le).2 0 (by rw [hempty]; rfl)

end Sys2Proof.Proofs
end

section
/-! PROOFS. 40_engine_cycle.md R110, by the row of the opcode byte at `pc`: an instruction that fits in memory is
executed with the operand bytes behind its opcode byte, and one that does not fit faults at address 256. -/

namespace Sys2Proof.Proofs

open Sys2Proof Sys2Proof.Machine Sys2Proof.Statements

/-- An operand that the format does not have makes no difference. -/
theorem buildInstr_unread (k : Opcode) (x y : Byte) :
    buildInstr k (if 2 ≤ opcodeLength k then x else 0) (if opcodeLength k = 3 then y else 0) = buildInstr k x y := by
  cases k <;> rfl

theorem readOperand1_fetchByte {s : State} {n : Nat} (h : 2 ≤ n → s.pc.toNat + 1 < 256) :
    readOperand1 (fetchByte s) n = .ok (if 2 ≤ n then o1 s else 0) := by
  unfold readOperand1
  split
  next hn => exact fetchByte_inside (h hn)
  next => rfl

theorem readOperand2_fetchByte {s : State} {n : Nat} (h : n = 3 → s.pc.toNat + 2 < 256) :
    readOperand2 (fetchByte s) n = .ok (if n = 3 then o2 s else 0) := by
  unfold readOperand2
  split
  next hn => exact fetchByte_inside (h hn)
  next => rfl

/-- A byte of the instruction at the first address past the end of memory. -/
theorem fetchByte_end {s : State} {k : Nat} (h : s.pc.toNat + k = 256) :
    fetchByte s k = .error (raiseOutOfBounds 256) := by
  rw [fetchByte_outside h.ge, ← Int.natCast_add, h]
  rfl

theorem fetchByte_of_startsWith {s : State} {op : Byte} (hs : startsWith s op) : fetchByte s 0 = .ok op := by
  obtain ⟨-, hpc, rfl⟩ := hs
  exact fetchByte_inside (Nat.lt_succ_of_le hpc)

theorem fetch_of_fits {s : State} {k : Opcode} (hs : startsWith s (opcodeByte k))
    (hfit : s.pc.toNat + opcodeLength k ≤ 256) : fetch s = .ok (buildInstr k (o1 s) (o2 s)) := by
  rw [← buildInstr_unread]
  exact decodeFrom_of_reads (fetchByte_of_startsWith hs) (opcodeOfByte_opcodeByte k)
    (readOperand1_fetchByte fun _ => by omega) (readOperand2_fetchByte fun _ => by omega)

/-- The first operand byte that does not fit is the one at address 256. -/
theorem fetch_of_overruns {s : State} {k : Opcode} (hs : startsWith s (opcodeByte k))
    (hover : 256 < s.pc.toNat + opcodeLength k) : fetch s = .error (raiseOutOfBounds 256) := by
  have ⟨_, hpc, _⟩ := hs
  have h0 := fetchByte_of_startsWith hs
  have hlen := opcodeLength_cases k
  rcases Nat.lt_or_ge (s.pc.toNat + 1) 256 with h1 | h1
  · have hread := readOperand1_fetchByte (n := opcodeLength k) fun _ => h1
    have hmissing : readOperand2 (fetchByte s) (opcodeLength k) = .error (raiseOutOfBounds 256) := by
      rw [readOperand2, if_pos (by omega), fetchByte_end (by omega)]
    simp [fetch, decodeFrom, h0, hread, hmissing]
  · have hmissing : readOperand1 (fetchByte s) (opcodeLength k) = .error (raiseOutOfBounds 256) := by
      rw [readOperand1, if_pos (by omega), fetchByte_end (by omega)]
    simp [fetch, decodeFrom, h0, hmissing]

/-- An instruction that fits in memory is executed. -/
theorem step_of_fits {s : State} {k : Opcode} (hs : startsWith s (opcodeByte k))
    (hfit : s.pc.toNat + opcodeLength k ≤ 256) : step s = exec (buildInstr k (o1 s) (o2 s)) s := by
  rw [step_running hs.1, fetch_of_fits hs hfit, attempt_ok]

/-- An instruction that runs past the end of memory faults. -/
theorem step_of_overruns {s : State} {k : Opcode} (hs : startsWith s (opcodeByte k))
    (hover : 256 < s.pc.toNat + opcodeLength k) : step s = .next (faulted s .outOfBounds 256) :=
  step_of_stepRaises hs.1 (.inl (fetch_of_overruns hs hover))

/-- In every format with operands the first is a register, and the first to be checked. -/
theorem firstBadOperand_buildInstr {k : Opcode} (hk : 2 ≤ opcodeLength k) {x : Byte} (hx : 8 ≤ x.toNat) (y : Byte) :
    firstBadOperand (buildInstr k x y) = some x := by
  have hbad : (!isRegIndex x) = true := (not_isRegIndex x).trans (decide_eq_true hx)
  cases k with
  | hlt | ret => exact absurd hk (by decide)
  | _ => exact List.find?_cons_of_pos hbad

/-- An instruction that fits in memory faults with its first operand where that is no register. -/
theorem step_of_badOperand1 {s : State} {k : Opcode} (hs : startsWith s (opcodeByte k))
    (hk : 2 ≤ opcodeLength k) (hfit : s.pc.toNat + opcodeLength k ≤ 256) (ho : 8 ≤ (o1 s).toNat) :
    step s = .next (faulted s .invalidRegister ((o1 s).toNat : Int)) :=
  (step_of_fits hs hfit).trans (exec_of_firstBadOperand s (firstBadOperand_buildInstr hk ho _))

/-- The 9-bit advance of `pc` is the address the spec adds up. -/
theorem ofNat_pc_add (pc : PcWord) (n : Nat) : BitVec.ofNat 9 (pc.toNat + n) = pc + BitVec.ofNat 9 n := by
  rw [BitVec.ofNat_add, BitVec.ofNat_toNat, BitVec.setWidth_eq]

end Sys2Proof.Proofs
end

section
/-! PROOFS. 41_data_output_halt.md: LDI, PRN and HLT, each executed and as a whole step. -/

namespace Sys2Proof.Proofs

open Sys2Proof Sys2Proof.Machine Sys2Proof.Statements

/-- Settles O25: the register is valid, and the state LDI completes with is the one listed. -/
theorem ldiCompletes : Obligations.LdiCompletes :=
  fun _ v _ h => exec_of_completes (.ldi h v)

/-- Settles O26: the register is valid, and the state PRN completes with is the one listed. -/
theorem prnCompletes : Obligations.PrnCompletes :=
  fun _ _ h => exec_of_completes (.prn h)

/-- Settles O27: HLT completes with no check. -/
theorem hltCompletes : Obligations.HltCompletes :=
  fun _ => exec_of_completes .hlt

/-- Settles O12: LDI does not fit, or has a valid register and completes, or faults with its register operand. -/
theorem ldiStepFollowsItsRule : Obligations.LdiStepFollowsItsRule := by
  intro s hs
  have hs : startsWith s (opcodeByte .ldi) := hs
  split
  next hpc =>
    have hover : 256 < s.pc.toNat + 3 := by omega
    exact step_of_overruns hs hover
  next hpc =>
    have hfit : s.pc.toNat + 3 ≤ 256 := by omega
    split
    next ho =>
      rw [ofNat_pc_add]
      exact (step_of_fits hs hfit).trans (ldiCompletes (o1 s) (o2 s) s ho)
    next ho => exact step_of_badOperand1 hs (by decide) hfit (Nat.le_of_not_lt ho)

/-- Settles O13: PRN does not fit, or has a valid register and completes, or faults with its register operand. -/
theorem prnStepFollowsItsRule : Obligations.PrnStepFollowsItsRule := by
  intro s hs
  have hs : startsWith s (opcodeByte .prn) := hs
  have ⟨_, hlast, _⟩ := hs
  split
  next hpc =>
    have hover : 256 < s.pc.toNat + 2 := by omega
    exact step_of_overruns hs hover
  next hpc =>
    have hfit : s.pc.toNat + 2 ≤ 256 := by omega
    split
    next ho =>
      rw [ofNat_pc_add]
      exact (step_of_fits hs hfit).trans (prnCompletes (o1 s) s ho)
    next ho => exact step_of_badOperand1 hs (by decide) hfit (Nat.le_of_not_lt ho)

/-- Settles O14: HLT is one byte, so it fits wherever its opcode byte does. -/
theorem hltStepFollowsItsRule : Obligations.HltStepFollowsItsRule := by
  intro s hs
  have hs : startsWith s (opcodeByte .hlt) := hs
  have ⟨_, hpc, _⟩ := hs
  have hfit : s.pc.toNat + 1 ≤ 256 := Nat.succ_le_succ hpc
  rw [ofNat_pc_add]
  exact (step_of_fits hs hfit).trans (hltCompletes s)

end Sys2Proof.Proofs
end

section
/-! PROOFS. 42_alu.md: ADD, MUL and CMP, each executed and as a whole step, and the one flag a CMP sets. -/

namespace Sys2Proof.Proofs

open Sys2Proof Sys2Proof.Machine Sys2Proof.Statements

/-! ### What the ALU computes, in the words of the statements -/

/-- A byte is a number modulo 256 already, so the reduction of 42_alu.md R132 need not be written. -/
theorem aluAdd_eq_ofNat (x y : Byte) : aluAdd x y = BitVec.ofNat 8 (x.toNat + y.toNat) :=
  BitVec.eq_of_toNat_eq ((aluAdd_toNat x y).trans (BitVec.toNat_ofNat _ 8).symm)

theorem aluMultiply_eq_ofNat (x y : Byte) : aluMultiply x y = BitVec.ofNat 8 (x.toNat * y.toNat) :=
  BitVec.eq_of_toNat_eq ((aluMultiply_toNat x y).trans (BitVec.toNat_ofNat _ 8).symm)

/-- Two bytes are equal as soon as their unsigned values are. -/
theorem compareFlags_eq (x y : Byte) :
    compareFlags x y =
      { equal := decide (x = y), lessThan := decide (x.toNat < y.toNat), greaterThan := decide (x.toNat > y.toNat) } := by
  simp [compareFlags, BitVec.toNat_inj]

/-- Of less, equal and greater exactly one holds, and its flag is the one that is set (42_alu.md R134). -/
theorem count_compareFlags (x y : Byte) :
    [(compareFlags x y).equal, (compareFlags x y).lessThan, (compareFlags x y).greaterThan].count true = 1 := by
  rcases Nat.lt_trichotomy x.toNat y.toNat with h | h | h
  · simp [compareFlags, h, h.ne, h.not_gt]
  · simp [compareFlags, h]
  · simp [compareFlags, h, h.ne', h.not_gt]

/-! ### Executing ADD, MUL and CMP -/

/-- Settles O28: the results are those of the ALU, and the states ADD and MUL complete with are the ones listed. -/
theorem addAndMulComplete : Obligations.AddAndMulComplete := fun _ _ _ ha hb =>
  ⟨⟨_, aluAdd_toNat _ _, exec_of_completes (.add ha hb)⟩,
    ⟨_, aluMultiply_toNat _ _, exec_of_completes (.mul ha hb)⟩⟩

/-- Settles O29: the registers are valid, and the flags CMP completes with are the ones listed. -/
theorem cmpCompletes : Obligations.CmpCompletes := by
  intro a b s ha hb
  rw [← compareFlags_eq]
  exact exec_of_completes (.cmp ha hb)

/-- Settles O50: the state CMP completes with has the flags of a comparison. -/
theorem cmpSetsExactlyOneFlag : Obligations.CmpSetsExactlyOneFlag := by
  intro a b s t ha hb h
  cases (exec_of_completes (.cmp ha hb)).symm.trans h
  exact count_compareFlags _ _

/-! ### A whole step of an instruction with two register operands -/

/-- Behind a valid first register operand the second is the one that is checked (40_engine_cycle.md R105). -/
theorem firstBadOperand_buildInstr_second {k : Opcode} (hk : opcodeFormat k = .rr) {x y : Byte} (hx : x.toNat < 8)
    (hy : 8 ≤ y.toNat) : firstBadOperand (buildInstr k x y) = some y := by
  have hbad : (!isRegIndex y) = true := (not_isRegIndex y).trans (decide_eq_true hy)
  have hfind : [x, y].find? (fun o => !isRegIndex o) = some y := by
    rw [List.find?_cons_of_neg (by simpa [not_isRegIndex] using hx)]
    exact List.find?_cons_of_pos hbad
  cases k with
  | mul | add | cmp => exact hfind
  | _ => cases hk

/-- A step of format `RR`: the instruction does not fit, or its first bad register operand faults, or it completes with
the state `t` that executing it gives. -/
theorem step_of_format_rr {s : State} {k : Opcode} (hk : opcodeFormat k = .rr) (hs : startsWith s (opcodeByte k))
    {t : (o1 s).toNat < 8 → (o2 s).toNat < 8 → State}
    (hexec : ∀ h1 h2, exec (buildInstr k (o1 s) (o2 s)) s = .next (t h1 h2)) :
    step s = .next (
      if 254 ≤ s.pc.toNat then faulted s .outOfBounds 256
      else if h1 : (o1 s).toNat < 8 then
        if h2 : (o2 s).toNat < 8 then t h1 h2
        else faulted s .invalidRegister ((o2 s).toNat : Int)
      else faulted s .invalidRegister ((o1 s).toNat : Int)) := by
  have hlen : opcodeLength k = 3 := congrArg formatLength hk
  split
  next hpc => exact step_of_overruns hs (by omega)
  next hpc =>
    have hfit : s.pc.toNat + opcodeLength k ≤ 256 := by omega
    split
    next h1 =>
      rw [step_of_fits hs hfit]
      split
      next h2 => exact hexec h1 h2
      next h2 => exact exec_of_firstBadOperand s (firstBadOperand_buildInstr_second hk h1 (Nat.le_of_not_lt h2))
    next h1 => exact step_of_badOperand1 hs (by omega) hfit (Nat.le_of_not_lt h1)

/-- Settles O15: MUL completes with the product of the ALU. -/
theorem mulStepFollowsItsRule : Obligations.MulStepFollowsItsRule := by
  intro s hs
  refine step_of_format_rr (k := .mul) rfl hs fun h1 h2 => ?_
  rw [ofNat_pc_add, ← aluMultiply_eq_ofNat]
  exact exec_of_completes (.mul h1 h2)

/-- Settles O16: ADD completes with the sum of the ALU. -/
theorem addStepFollowsItsRule : Obligations.AddStepFollowsItsRule := by
  intro s hs
  refine step_of_format_rr (k := .add) rfl hs fun h1 h2 => ?_
  rw [ofNat_pc_add, ← aluAdd_eq_ofNat]
  exact exec_of_completes (.add h1 h2)

/-- Settles O21: CMP completes as `cmpCompletes` says. -/
theorem cmpStepFollowsItsRule : Obligations.CmpStepFollowsItsRule := by
  intro s hs
  refine step_of_format_rr (k := .cmp) rfl hs fun h1 h2 => ?_
  rw [ofNat_pc_add]
  exact cmpCompletes (o1 s) (o2 s) s h1 h2

end Sys2Proof.Proofs
end

section
/-! PROOFS. 43_stack.md: PUSH and POP, each executed and as a whole step, and a PUSH with the POP after it. -/

namespace Sys2Proof.Proofs

open Sys2Proof Sys2Proof.Machine Sys2Proof.Statements

/-! ### The stack after a push and after a pop -/

/-- A push with room does not wrap `sp` (10_state.md R29). -/
theorem toNat_sp_sub_one {s : State} (h : s.sp ≠ 0#8) : (s.sp - 1#8).toNat = s.sp.toNat - 1 :=
  BitVec.toNat_sub_of_le (BitVec.le_def.2 ((sp_ne_zero_iff s.sp).1 h))

/-- The `sp` after a push with room is the number the spec counts down to. -/
theorem ofNat_toNat_sp_sub_one {s : State} (h : s.sp ≠ 0#8) : BitVec.ofNat 8 (s.sp.toNat - 1) = s.sp - 1#8 := by
  rw [← toNat_sp_sub_one h, BitVec.ofNat_toNat, BitVec.setWidth_eq]

/-- Below the `sp` of a push there is room for a pop. -/
theorem sp_sub_one_ne_top {s : State} (h : s.sp ≠ 0#8) : s.sp - 1#8 ≠ 255#8 := by
  bv_omega

/-- The cells after a push: the one below the old top holds the byte pushed, and every other is as before. -/
theorem byteAt_pushed {s : State} (hwf : Memory.wf s.mem = true) (v : Byte) (a : Nat) :
    byteAt (pushed s v) a = if s.sp.toNat - 1 = a then v else byteAt s a :=
  read_write hwf

/-- The top of the stack after a push is the byte pushed. -/
theorem byteAt_pushed_top {s : State} (hwf : Memory.wf s.mem = true) (h : s.sp ≠ 0#8) (v : Byte) :
    byteAt (pushed s v) (pushed s v).sp.toNat = v := by
  rw [byteAt_pushed hwf, pushed_sp, toNat_sp_sub_one h, if_pos rfl]

/-! ### Executing PUSH and POP -/

/-- Settles O30: the state PUSH completes with is the one after a push, whose cells `byteAt_pushed` reads. -/
theorem pushCompletes : Obligations.PushCompletes := by
  intro r s h hwf hsp
  have haddr : (pushAddr s).toNat = s.sp.toNat - 1 := by rw [pushAddr_toNat hsp, Int.toNat_natCast]
  rw [haddr]
  refine ⟨_, exec_of_completes (.push h hsp), rfl, ?stored, fun a ha => ?others, toNat_sp_sub_one hsp,
    rfl, rfl, rfl, rfl, rfl, rfl⟩
  case stored => exact (byteAt_pushed hwf _ _).trans (if_pos rfl)
  case others => exact (byteAt_pushed hwf _ _).trans (if_neg ha.symm)

/-- Settles O31: the register is valid, and the state POP completes with is the one listed. -/
theorem popCompletes : Obligations.PopCompletes :=
  fun _ _ h hsp => exec_of_completes (.pop h hsp)

/-- Settles O48: the POP has room because the PUSH had, and what it reads is the byte on top after the push. -/
theorem pushThenPopCopiesARegister : Obligations.PushThenPopCopiesARegister := by
  intro a b s ha hb hwf hsp
  have hcopied := congrArg (s.regs.set b.toNat · hb) (byteAt_pushed_top hwf hsp (s.regs[a.toNat]'ha))
  refine ⟨_, _, exec_of_completes (.push ha hsp), popCompletes b _ hb (sp_sub_one_ne_top hsp),
    hcopied, BitVec.sub_add_cancel _ _, ?stored, ?same⟩
  case stored => exact (byteAt_pushed hwf _ _).trans (if_pos rfl)
  case same =>
    rintro rfl
    exact hcopied.trans (Vector.set_getElem_self ha)

/-! ### A whole step of an instruction with one register operand -/

/-- A step of format `R`: the instruction does not fit, or its register operand faults, or it answers the state `t` that
executing it gives. -/
theorem step_of_format_r {s : State} {k : Opcode} (hk : opcodeFormat k = .r) (hs : startsWith s (opcodeByte k))
    {t : (o1 s).toNat < 8 → State} (hexec : ∀ h, exec (buildInstr k (o1 s) (o2 s)) s = .next (t h)) :
    step s = .next (
      if s.pc.toNat = 255 then faulted s .outOfBounds 256
      else if h : (o1 s).toNat < 8 then t h
      else faulted s .invalidRegister ((o1 s).toNat : Int)) := by
  have hlen : opcodeLength k = 2 := congrArg formatLength hk
  have ⟨_, hlast, _⟩ := hs
  split
  next hpc => exact step_of_overruns hs (by omega)
  next hpc =>
    have hfit : s.pc.toNat + opcodeLength k ≤ 256 := by omega
    split
    next h => exact (step_of_fits hs hfit).trans (hexec h)
    next h => exact step_of_badOperand1 hs (by omega) hfit (Nat.le_of_not_lt h)

/-- Settles O17: with a valid register PUSH faults at `sp = 0`, and completes elsewhere. -/
theorem pushStepFollowsItsRule : Obligations.PushStepFollowsItsRule := by
  intro s hs
  refine step_of_format_r (k := .push) rfl hs fun h => ?_
  split
  next hsp => exact exec_of_raises (.pushRange h hsp)
  next hsp =>
    rw [ofNat_pc_add, ofNat_toNat_sp_sub_one hsp]
    exact exec_of_completes (.push h hsp)

/-- Settles O18: with a valid register POP faults at `sp = 255`, and completes elsewhere. -/
theorem popStepFollowsItsRule : Obligations.PopStepFollowsItsRule := by
  intro s hs
  refine step_of_format_r (k := .pop) rfl hs fun h => ?_
  split
  next hsp => exact exec_of_raises (.popRange h hsp)
  next hsp =>
    rw [ofNat_pc_add, BitVec.ofNat_add, BitVec.ofNat_toNat, BitVec.setWidth_eq]
    exact popCompletes (o1 s) s h hsp

end Sys2Proof.Proofs
end

section
/-! PROOFS. 44_control_flow.md: CALL, RET, JMP, JEQ and JNE, each executed and as a whole step, and a CALL with the RET
that returns behind it. -/

namespace Sys2Proof.Proofs

open Sys2Proof Sys2Proof.Machine Sys2Proof.Statements

/-! ### Targets, return addresses, and the stack behind a CALL -/

/-- A target is the byte's own value (10_state.md R27). -/
theorem toNat_targetOf (b : Byte) : (targetOf b).toNat = b.toNat :=
  BitVec.toNat_setWidth_of_le (by decide)

/-- A return address that fits in a byte is pushed as it is (44_control_flow.md R150). -/
theorem toNat_returnByte {pc : PcWord} (h : pc.toNat + 2 ≤ 255) :
    (BitVec.ofNat 8 (pc.toNat + 2)).toNat = pc.toNat + 2 :=
  (BitVec.toNat_ofNat _ 8).trans (Nat.mod_eq_of_lt (Nat.lt_succ_of_le h))

/-- Behind a CALL `sp` is one lower and the return address is on top of the stack. -/
theorem sp_and_top_of_call {r : Byte} {s t : State} (hr : r.toNat < 8) (hwf : Memory.wf s.mem = true)
    (hsp : s.sp ≠ 0#8) (hpc : s.pc.toNat + 2 ≤ 255) (h : exec (.call r) s = .next t) :
    t.sp = s.sp - 1#8 ∧ byteAt t t.sp.toNat = BitVec.ofNat 8 (s.pc.toNat + 2) := by
  cases (exec_of_completes (.call hr hsp (by omega))).symm.trans h
  exact ⟨rfl, byteAt_pushed_top hwf hsp _⟩

/-! ### Executing the five instructions -/

/-- Settles O32: the state CALL completes with is the one after a push of the return address, whose cells
`byteAt_pushed` reads. -/
theorem callCompletes : Obligations.CallCompletes := by
  intro r s h hwf hsp hpc
  have haddr : (pushAddr s).toNat = s.sp.toNat - 1 := by rw [pushAddr_toNat hsp, Int.toNat_natCast]
  rw [haddr]
  refine ⟨_, exec_of_completes (.call h hsp (by omega)), rfl, ?stored, fun a ha => ?others, toNat_sp_sub_one hsp,
    toNat_targetOf _, rfl, rfl, rfl, rfl, rfl⟩
  case stored => exact (congrArg BitVec.toNat ((byteAt_pushed hwf _ _).trans (if_pos rfl))).trans (toNat_returnByte hpc)
  case others => exact (byteAt_pushed hwf _ _).trans (if_neg ha.symm)

/-- Settles O33: the state RET completes with is the one listed. -/
theorem retCompletes : Obligations.RetCompletes :=
  fun _ hsp => exec_of_completes (.ret hsp)

/-- Settles O34: the register is valid, and the state JMP completes with is the one listed. -/
theorem jmpCompletes : Obligations.JmpCompletes :=
  fun _ _ h => exec_of_completes (.jmp h)

/-- Settles O35: JEQ is taken where Equal is set, and JNE where it is clear. -/
theorem jeqAndJneComplete : Obligations.JeqAndJneComplete := by
  intro r s h
  cases he : s.flags.equal with
  | true => exact ⟨exec_of_completes (.jeqTaken h he), exec_of_completes (.jnePast h he)⟩
  | false => exact ⟨exec_of_completes (.jeqPast h he), exec_of_completes (.jneTaken h he)⟩

/-- Settles O38: the register is valid and the stack has room, so the return address is what CALL fails on. -/
theorem callFaultsWhereTheReturnAddressIsNoByte : Obligations.CallFaultsWhereTheReturnAddressIsNoByte :=
  fun _ _ h hsp hpc => exec_of_raises (.callReturn h hsp (by omega))

/-- Settles O49: the RET has room because the CALL had, and what it reads is the CALL's return address. -/
theorem retReturnsBehindTheCall : Obligations.RetReturnsBehindTheCall := by
  intro r s t u hr hwf hsp hpc hcall husp hutop
  obtain ⟨htsp, httop⟩ := sp_and_top_of_call hr hwf hsp hpc hcall
  have husp : u.sp = s.sp - 1#8 := husp.trans htsp
  have hroom : u.sp ≠ 255#8 := husp ▸ sp_sub_one_ne_top hsp
  refine ⟨_, retCompletes u hroom, ?target, ?sp⟩
  case target =>
    calc (targetOf (byteAt u u.sp.toNat)).toNat
      _ = (byteAt u u.sp.toNat).toNat := toNat_targetOf _
      _ = (BitVec.ofNat 8 (s.pc.toNat + 2)).toNat := congrArg BitVec.toNat (hutop.trans httop)
      _ = s.pc.toNat + 2 := toNat_returnByte hpc
  case sp =>
    calc u.sp + 1#8
      _ = s.sp - 1#8 + 1#8 := by rw [husp]
      _ = s.sp := BitVec.sub_add_cancel _ _

/-! ### A whole step of each -/

/-- Settles O19: with a valid register CALL faults at `sp = 0`, then where its return address is 256, and completes
elsewhere. -/
theorem callStepFollowsItsRule : Obligations.CallStepFollowsItsRule := by
  intro s hs
  have hs : startsWith s (opcodeByte .call) := hs
  have ⟨_, hlast, _⟩ := hs
  by_cases hend : s.pc.toNat = 255
  · have hover : 256 < s.pc.toNat + 2 := by omega
    rw [if_pos hend]
    exact step_of_overruns hs hover
  · refine step_of_format_r rfl hs fun h => ?_
    split
    next hsp => exact exec_of_raises (.callRange h hsp)
    next hsp =>
      split
      next hpc =>
        have hraise := exec_of_raises (.callReturn h hsp hpc.ge)
        rwa [hpc] at hraise
      next hpc =>
        rw [ofNat_toNat_sp_sub_one hsp, BitVec.ofNat_toNat]
        exact exec_of_completes (.call h hsp (by omega))

/-- Settles O20: RET is one byte, so it fits wherever its opcode byte does; it faults at `sp = 255`, and completes
elsewhere. -/
theorem retStepFollowsItsRule : Obligations.RetStepFollowsItsRule := by
  intro s hs
  have hs : startsWith s (opcodeByte .ret) := hs
  have ⟨_, hpc, _⟩ := hs
  have hfit : s.pc.toNat + 1 ≤ 256 := Nat.succ_le_succ hpc
  refine (step_of_fits hs hfit).trans ?_
  split
  next hsp => exact exec_of_raises (.retRange hsp)
  next hsp =>
    rw [BitVec.ofNat_add, BitVec.ofNat_toNat, BitVec.ofNat_toNat, BitVec.setWidth_eq]
    exact retCompletes s hsp

/-- Settles O22: JMP completes as `jmpCompletes` says. -/
theorem jmpStepFollowsItsRule : Obligations.JmpStepFollowsItsRule := by
  intro s hs
  refine step_of_format_r (k := .jmp) rfl hs fun h => ?_
  rw [BitVec.ofNat_toNat]
  exact jmpCompletes (o1 s) s h

/-- Settles O23: JEQ goes to its register where Equal is set, and past itself elsewhere. -/
theorem jeqStepFollowsItsRule : Obligations.JeqStepFollowsItsRule := by
  intro s hs
  refine step_of_format_r (k := .jeq) rfl hs fun h => ?_
  split
  next he =>
    rw [BitVec.ofNat_toNat]
    exact exec_of_completes (.jeqTaken h he)
  next he =>
    rw [ofNat_pc_add]
    exact exec_of_completes (.jeqPast h (Bool.eq_false_of_not_eq_true he))

/-- Settles O24: JNE goes to its register where Equal is clear, and past itself elsewhere. -/
theorem jneStepFollowsItsRule : Obligations.JneStepFollowsItsRule := by
  intro s hs
  refine step_of_format_r (k := .jne) rfl hs fun h => ?_
  split
  next he =>
    rw [BitVec.ofNat_toNat]
    exact exec_of_completes (.jneTaken h he)
  next he =>
    rw [ofNat_pc_add]
    exact exec_of_completes (.jnePast h (Bool.eq_true_of_not_eq_false he))

end Sys2Proof.Proofs
end

section
/-! PROOFS. 45_host_interface.md: loading an image, reading a program text line by line, and what the host reads of a
run. -/

namespace Sys2Proof.Proofs

open Sys2Proof Sys2Proof.Machine Sys2Proof.Statements

/-! ### Load -/

/-- The state a load that succeeds leaves: the reset state with the image placed (45_host_interface.md R172). -/
theorem boot_of_fits {image : List Byte} (h : image.length ≤ 256) :
    boot image = .ok { State.reset with mem := placeBytes State.reset.mem 0 image } := if_pos h

theorem boot_of_tooLong {image : List Byte} (h : 256 < image.length) : boot image = .error .imageTooLong :=
  if_neg (Nat.not_le_of_lt h)

/-- A cell after a load holds the image's byte at its address, or what an unlisted cell holds past the image's end. -/
theorem read_loaded (image : List Byte) {a : Nat} (ha : a < 256) :
    Memory.read (placeBytes State.reset.mem 0 image) a = image.getD a 0x00#8 := by
  rw [read_placeBytes image 0 a reset_mem_wf, if_pos ⟨Nat.zero_le a, ha⟩, Nat.sub_zero, List.getD_eq_getElem?_getD]
  rfl

/-- Settles O54: a load that fits answers the state of `boot_of_fits`, whose cells `read_loaded` reads. -/
theorem loadPlacesTheImage : Obligations.LoadPlacesTheImage := fun image =>
  ⟨fun h => ⟨_, boot_of_fits h, rfl, wf_placeBytes image 0 reset_mem_wf, fun _ => read_loaded image⟩, boot_of_tooLong⟩

/-! ### The digits of a byte -/

/-- The lowest `k` bits of a number as binary digits, the highest of them first. -/
def bitDigits (n k : Nat) : List Char := (List.range k).reverse.map fun j => if n.testBit j then '1' else '0'

theorem literal_eq_bitDigits (b : Byte) : literal b = bitDigits b.toNat 8 := rfl

theorem bitDigits_succ (n k : Nat) :
    bitDigits n (k + 1) = (if n.testBit k then '1' else '0') :: bitDigits n k := by
  simp [bitDigits, List.range_succ]

/-- What reading the digits makes of the value `acc` read before them. -/
theorem foldl_bitDigits (n k acc : Nat) :
    (bitDigits n k).foldl (fun v c => 2 * v + (if c = '1' then 1 else 0)) acc = acc * 2 ^ k + n % 2 ^ k := by
  induction k generalizing acc with
  | zero => simp [bitDigits, Nat.mod_one]
  | succ k ih =>
    have hdigit : (if (if n.testBit k then '1' else '0') = '1' then 1 else 0) = (n.testBit k).toNat := by
      cases n.testBit k <;> rfl
    rw [bitDigits_succ, List.foldl_cons, ih, hdigit, Nat.mod_pow_succ, Nat.toNat_testBit]
    ring

/-- The first digit is bit 7 (45_host_interface.md R171), so the literal of a byte has the byte's value. -/
theorem binaryValue_literal (b : Byte) : binaryValue (literal b) = b.toNat := by
  rw [literal_eq_bitDigits, binaryValue, foldl_bitDigits, Nat.zero_mul, Nat.zero_add, Nat.mod_eq_of_lt b.isLt]

theorem isBinaryDigit_of_mem_literal {b : Byte} {c : Char} (h : c ∈ literal b) : isBinaryDigit c = true := by
  obtain ⟨k, -, rfl⟩ := List.mem_map.1 h
  cases b.getLsbD k <;> rfl

/-- The line of a byte is not blank. -/
theorem all_isWhite_literal (b : Byte) : (literal b).all isWhite = false := by
  have hfirst : (if b.getLsbD 7 then '1' else '0') ∈ literal b := List.mem_cons_self
  refine List.all_eq_false.2 ⟨_, hfirst, ?_⟩
  rw [Laws.isWhite_of_isBinaryDigit (isBinaryDigit_of_mem_literal hfirst)]
  exact Bool.false_ne_true

/-- Eight binary digits are read by every leniency. -/
theorem parseToken_literal (l : Config.TextLeniency) (b : Byte) : parseToken l (literal b) = .ok b := by
  have hdigits : (literal b).all isBinaryDigit = true := List.all_eq_true.2 fun _ => isBinaryDigit_of_mem_literal
  have hlength : (literal b).length = 8 := rfl
  simp [parseToken, hdigits, hlength, binaryValue_literal]

/-! ### A line's parts -/

/-- The literal of a line, empty where the line holds no byte. -/
def lineDigits (x : SourceLine) : List Char := x.1.elim [] literal

/-- The comment of a line with its `#`, empty where the line holds none. -/
def lineComment (x : SourceLine) : List Char := x.2.2.elim [] ('#' :: ·)

/-- The text of a line without its line feed. -/
def lineBody (x : SourceLine) : List Char := lineDigits x ++ List.replicate x.2.1 ' ' ++ lineComment x

theorem text_eq_lineBody (x : SourceLine) : SourceLine.text x = lineBody x ++ ['\n'] := by
  obtain ⟨b, n, c⟩ := x
  cases b <;> cases c <;> rfl

theorem isBinaryDigit_of_mem_lineDigits {x : SourceLine} {c : Char} (h : c ∈ lineDigits x) :
    isBinaryDigit c = true := by
  obtain ⟨b, n, m⟩ := x
  cases b with
  | none => cases h
  | some b => exact isBinaryDigit_of_mem_literal h

/-- A binary digit does not start a comment. -/
theorem ne_hash_of_isBinaryDigit {c : Char} (h : isBinaryDigit c = true) : (c != '#') = true := by
  rw [bne_iff_ne]
  rintro rfl
  exact absurd h (by decide)

/-- No leniency ends a line at a space or a tab. -/
theorem isLineEnd_blank (l : Config.TextLeniency) {c : Char} (h : c = ' ' ∨ c = '\t') : isLineEnd l c = false := by
  rcases h with rfl | rfl <;> rfl

/-- No character before a line's own line feed ends the line. -/
theorem isLineEnd_of_mem_lineBody (l : Config.TextLeniency) {x : SourceLine} (hx : SourceLine.ok x) {c : Char}
    (h : c ∈ lineBody x) : isLineEnd l c = false := by
  rcases List.mem_append.1 h with h | hcomment
  · rcases List.mem_append.1 h with hdigit | hspace
    · exact Laws.isLineEnd_of_not_white (Laws.isWhite_of_isBinaryDigit (isBinaryDigit_of_mem_lineDigits hdigit))
    · exact isLineEnd_blank l (.inl (List.eq_of_mem_replicate hspace))
  · obtain ⟨b, n, m⟩ := x
    cases m with
    | none => cases hcomment
    | some m =>
      rcases List.mem_cons.1 hcomment with rfl | hm
      · exact Laws.isLineEnd_of_not_white (by decide)
      · cases hw : isWhite c with
        | false => exact Laws.isLineEnd_of_not_white hw
        | true => exact isLineEnd_blank l (hx c hm hw)

/-! ### Reading a line -/

/-- Nothing is dropped from the front where no character is to go. -/
theorem dropWhile_of_all_false {p : Char → Bool} {x : List Char} (h : ∀ c ∈ x, p c = false) : x.dropWhile p = x :=
  List.dropWhile_eq_self_iff.2 fun hl => Bool.eq_false_iff.1 (h _ (List.getElem_mem hl))

/-- What `dropEnd` drops where every character of `w` is to go and none of `x`. -/
theorem dropEnd_append_of_all {p : Char → Bool} {x w : List Char} (hx : ∀ c ∈ x, p c = false)
    (hw : ∀ c ∈ w, p c = true) : dropEnd p (x ++ w) = x := by
  rw [dropEnd, List.reverse_append, List.dropWhile_append_of_pos fun c hc => hw c (List.mem_reverse.1 hc),
    dropWhile_of_all_false fun c hc => hx c (List.mem_reverse.1 hc), List.reverse_reverse]

theorem takeWhile_isWhite_digits {t : List Char} (h : ∀ c ∈ t, isBinaryDigit c = true) : t.takeWhile isWhite = [] :=
  List.takeWhile_eq_nil_iff.2 fun hl => Bool.eq_false_iff.1 (Laws.isWhite_of_isBinaryDigit (h _ (List.getElem_mem hl)))

/-- Around a token of binary digits alone stands no white space. -/
theorem whiteBefore_digits {t : List Char} (h : ∀ c ∈ t, isBinaryDigit c = true) : whiteBefore t = [] :=
  takeWhile_isWhite_digits h

theorem whiteAfter_digits {t : List Char} (h : ∀ c ∈ t, isBinaryDigit c = true) : whiteAfter t = [] :=
  congrArg List.reverse (takeWhile_isWhite_digits fun c hc => h c (List.mem_reverse.1 hc))

theorem tokenOf_digits {t : List Char} (h : ∀ c ∈ t, isBinaryDigit c = true) : tokenOf t = t := by
  have hwhite : ∀ c ∈ t, isWhite c = false := fun c hc => Laws.isWhite_of_isBinaryDigit (h c hc)
  have hend : dropEnd isWhite (t ++ []) = t := dropEnd_append_of_all hwhite fun _ hc => nomatch hc
  rw [tokenOf, dropWhile_of_all_false hwhite]
  rwa [List.append_nil] at hend

/-- Of a program line its comment and the spaces before that are dropped, and its digits are kept. -/
theorem stripSpaces_stripComment_lineBody (x : SourceLine) :
    stripSpaces (stripComment (lineBody x)) = lineDigits x := by
  have hcomment : (lineComment x).takeWhile (fun c => c != '#') = [] := by
    obtain ⟨b, n, m⟩ := x
    cases m <;> rfl
  have hbefore : ∀ c ∈ lineDigits x ++ List.replicate x.2.1 ' ', (c != '#') = true := by
    intro c hc
    rcases List.mem_append.1 hc with hdigit | hspace
    · exact ne_hash_of_isBinaryDigit (isBinaryDigit_of_mem_lineDigits hdigit)
    · rw [List.eq_of_mem_replicate hspace]
      rfl
  rw [stripComment, lineBody, List.takeWhile_append_of_pos hbefore, hcomment, List.append_nil]
  refine dropEnd_append_of_all (fun c hc => ?kept) fun c hc => beq_iff_eq.2 (List.eq_of_mem_replicate hc)
  case kept =>
    rw [beq_eq_false_iff_ne]
    rintro rfl
    exact absurd (isBinaryDigit_of_mem_lineDigits hc) (by decide)

/-- A program line is read as its byte, or as none. -/
theorem parseLine_lineBody (l : Config.TextLeniency) (x : SourceLine) : parseLine l (lineBody x) = .ok x.1 := by
  simp only [parseLine, stripSpaces_stripComment_lineBody]
  obtain ⟨b, n, m⟩ := x
  cases b with
  | none => rfl
  | some b =>
    have hdigits : ∀ c ∈ literal b, isBinaryDigit c = true := fun _ => isBinaryDigit_of_mem_literal
    simp [lineDigits, all_isWhite_literal, whiteBefore_digits hdigits, whiteAfter_digits hdigits,
      tokenOf_digits hdigits, parseToken_literal]

/-! ### Reading a text -/

/-- A text that begins with a program line is read as the line's byte and the bytes of the rest. -/
theorem parseProgramText_text_append (l : Config.TextLeniency) {x : SourceLine} (hx : SourceLine.ok x)
    {rest : List Char} {bs : List Byte} (h : parseProgramText l rest = .ok bs) :
    parseProgramText l (SourceLine.text x ++ rest) = .ok (x.1.toList ++ bs) := by
  have hsplit : splitLines l (SourceLine.text x ++ rest) = lineBody x :: splitLines l rest := by
    rw [text_eq_lineBody, List.append_assoc, List.singleton_append, Laws.splitLines_append_lf,
      Laws.splitLines_eq_singleton l (lineBody x) fun _ => isLineEnd_of_mem_lineBody l hx, List.singleton_append]
  rw [parseProgramText] at h ⊢
  simp [hsplit, parseLines, parseLine_lineBody, h]

/-- Settles O59, by induction on the lines; the text of no line is one blank line. -/
theorem programTextsParseToTheirBytes : Obligations.ProgramTextsParseToTheirBytes := by
  intro l lines
  induction lines with
  | nil => exact fun _ => rfl
  | cons x xs ih =>
    intro hok
    obtain ⟨hx, hxs⟩ := List.forall_mem_cons.1 hok
    rw [List.flatMap_cons, parseProgramText_text_append l hx (ih hxs)]
    cases hb : x.1 <;> simp [hb]

/-! ### Status and exit code -/

/-- The status shows the run state, and the record in a faulted state alone (45_host_interface.md R177). -/
theorem status_eq (s : State) : status s = (s.run, if s.run = .faulted then s.fault else none) := by
  unfold status
  cases s.run <;> rfl

theorem runExitCode_of_running (c : Config.ExitCodes) {s : State} (h : s.run = .running) : runExitCode c s = none := by
  rw [runExitCode, h]

theorem runExitCode_of_halted (c : Config.ExitCodes) {s : State} (h : s.run = .halted) : runExitCode c s = some 0 := by
  rw [runExitCode, h]
  rfl

theorem runExitCode_of_faulted (c : Config.ExitCodes) {s : State} (h : s.run = .faulted) :
    runExitCode c s = some c.runtime := by
  rw [runExitCode, h]

/-- The exit code of a faulted run is no normal exit's (92_eei_decisions.md D14). -/
theorem runtime_ne_zero (c : Config.ExitCodes) : c.runtime ≠ 0 := c.nonzero _ (by simp)

/-- Settles O58: the three run states give three kinds of exit code, of which only a halted run's is 0. -/
theorem statusAndExitCodeFollowTheRunState : Obligations.StatusAndExitCodeFollowTheRunState := by
  intro c s
  rw [status_eq]
  refine ⟨rfl, rfl, ?_⟩
  cases h : s.run with
  | running => simp [runExitCode_of_running c h]
  | halted => simp [runExitCode_of_halted c h]
  | faulted => simp [runExitCode_of_faulted c h, runtime_ne_zero c]

end Sys2Proof.Proofs
end

section
/-! PROOFS. 60_exceptions.md: a step reports the first fault in the order of R198, fault entry changes only the run state
and the record, and a launch that cannot start ends with a load or usage error. -/

namespace Sys2Proof.Proofs

open Sys2Proof Sys2Proof.Machine Sys2Proof.Statements

/-! ### Fault entry -/

/-- No instruction that completes leaves a faulted core. -/
theorem Completes.run_ne_faulted {s t : State} {i : Instr} (hc : Completes s i t) (hrun : s.run = .running) :
    t.run ≠ .faulted := by
  rcases hc.run with h | ⟨-, h⟩
  · rw [h, hrun]
    decide
  · rw [h]
    decide

/-- Settles O40: of the ways a running core steps only taking a fault leaves it faulted, and a faulted core rests. -/
theorem faultEntryChangesOnlyRunAndRecord : Obligations.FaultEntryChangesOnlyRunAndRecord := by
  intro s t hrun hstep hfaulted
  have hrest : step t = .next t := step_stopped (by rw [hfaulted]; decide)
  rcases step_next_cases hstep with ⟨hstopped, -⟩ | ⟨-, r, -, rfl⟩ | ⟨-, i, -, hc⟩
  · exact absurd hrun hstopped
  · exact ⟨⟨r.cause, r.info, rfl⟩, hrest⟩
  · exact absurd hfaulted (hc.run_ne_faulted hrun)

/-! ### The words of the order of faults, by the row of the opcode byte -/

theorem opcodeByte_inj {j k : Opcode} : opcodeByte j = opcodeByte k ↔ j = k := by
  rw [← opcodeOfByte_eq_some_iff, opcodeOfByte_opcodeByte, Option.some_inj, eq_comm]

theorem exists_opcodeByte_of_mem_listed {b : Byte} (h : b ∈ listed) : ∃ k, opcodeByte k = b := by
  have hrow : opcodeOfByte b ≠ none := fun hnone => (opcodeOfByte_eq_none_iff b).1 hnone h
  obtain ⟨k, hk⟩ := Option.ne_none_iff_exists'.1 hrow
  exact ⟨k, opcodeByte_of_opcodeOfByte hk⟩

theorem opcodeByte_mem_listed (k : Opcode) : opcodeByte k ∈ listed := by
  cases k <;> decide

theorem opcodeByte_notMem_oneByte_iff (k : Opcode) : opcodeByte k ∉ oneByte ↔ 2 ≤ opcodeLength k := by
  cases k <;> decide

theorem opcodeByte_mem_threeByte_iff (k : Opcode) : opcodeByte k ∈ threeByte ↔ opcodeLength k = 3 := by
  cases k <;> decide

theorem opcodeByte_mem_twoRegister_iff (k : Opcode) : opcodeByte k ∈ twoRegister ↔ opcodeFormat k = .rr := by
  cases k <;> decide

/-! ### A step reports the first fault -/

/-- A step of `s` answers the fault named, or where none is named a state that is not faulted. -/
def StepReports (s : State) : Option (Cause × Int) → Prop
  | some (c, info) => step s = .next (faulted s c info)
  | none => ∃ t, step s = .next t ∧ t.run ≠ .faulted

theorem stepReports_of_stepRaises {s : State} {r : Raise} (hrun : s.run = .running) (h : StepRaises s r) :
    StepReports s (some (r.cause, r.info)) :=
  step_of_stepRaises hrun h

theorem stepReports_of_raises {s : State} {k : Opcode} {r : Raise} (hs : startsWith s (opcodeByte k))
    (hfit : s.pc.toNat + opcodeLength k ≤ 256) (h : Raises s (buildInstr k (o1 s) (o2 s)) r) :
    StepReports s (some (r.cause, r.info)) :=
  stepReports_of_stepRaises hs.1 (.inr ⟨_, fetch_of_fits hs hfit, h⟩)

theorem stepReports_none_of_fits {s : State} {k : Opcode} (hs : startsWith s (opcodeByte k))
    (hfit : s.pc.toNat + opcodeLength k ≤ 256) (h : ∀ r, ¬ Raises s (buildInstr k (o1 s) (o2 s)) r) :
    StepReports s none := by
  obtain ⟨t, hc⟩ := (completes_or_raises s (buildInstr k (o1 s) (o2 s))).resolve_right (not_exists.2 h)
  exact ⟨t, step_of_completes hs.1 (fetch_of_fits hs hfit) hc, hc.run_ne_faulted hs.1⟩

/-- The bad operand of an instruction is its first, or its second in format `RR`. -/
theorem firstBadOperand_buildInstr_cases {k : Opcode} {x y o : Byte} (h : firstBadOperand (buildInstr k x y) = some o) :
    (2 ≤ opcodeLength k ∧ 8 ≤ x.toNat) ∨ (opcodeFormat k = .rr ∧ 8 ≤ y.toNat) := by
  cases k with
  | hlt | ret => cases h
  | ldi | prn | push | pop | call | jmp | jeq | jne => exact .inl ⟨by decide, (find_singleton_bad h).2⟩
  | mul | add | cmp => exact (find_pair_bad h).imp (fun ⟨_, hx⟩ => ⟨by decide, hx⟩) fun ⟨_, _, hy⟩ => ⟨rfl, hy⟩

/-- An instruction raises only by one of the last five conditions of the order. -/
theorem raises_buildInstr_cases {s : State} {k : Opcode} {x y : Byte} {r : Raise} (h : Raises s (buildInstr k x y) r) :
    (2 ≤ opcodeLength k ∧ 8 ≤ x.toNat) ∨ (opcodeFormat k = .rr ∧ 8 ≤ y.toNat) ∨
      ((k = .push ∨ k = .call) ∧ s.sp = 0#8) ∨ ((k = .pop ∨ k = .ret) ∧ s.sp = 255#8) ∨
      (k = .call ∧ 254 ≤ s.pc.toNat) := by
  have hrow : opcodeOf (buildInstr k x y) = k := opcodeOf_buildInstr k x y
  generalize hi : buildInstr k x y = i at h hrow
  cases h with
  | operand hbad =>
    rw [← hi] at hbad
    exact (firstBadOperand_buildInstr_cases hbad).imp_right .inl
  | pushRange _ hsp => exact .inr (.inr (.inl ⟨.inl hrow.symm, hsp⟩))
  | callRange _ hsp => exact .inr (.inr (.inl ⟨.inr hrow.symm, hsp⟩))
  | popRange _ hsp => exact .inr (.inr (.inr (.inl ⟨.inl hrow.symm, hsp⟩)))
  | retRange hsp => exact .inr (.inr (.inr (.inl ⟨.inr hrow.symm, hsp⟩)))
  | callReturn _ _ hpc => exact .inr (.inr (.inr (.inr ⟨hrow.symm, hpc⟩)))

/-- The order of faults behind the table lookup, a branch for each condition. -/
theorem stepReports_firstFault_of_row {s : State} {k : Opcode} (hs : startsWith s (opcodeByte k)) :
    StepReports s (firstFault s) := by
  have ⟨_, hpc, hop⟩ := hs
  have hlen := opcodeLength_cases k
  have hpush : opcodeByte k = 0x45#8 ↔ k = .push := opcodeByte_inj (k := .push)
  have hcall : opcodeByte k = 0x50#8 ↔ k = .call := opcodeByte_inj (k := .call)
  have hpop : opcodeByte k = 0x46#8 ↔ k = .pop := opcodeByte_inj (k := .pop)
  have hret : opcodeByte k = 0x11#8 ↔ k = .ret := opcodeByte_inj (k := .ret)
  simp only [firstFault, hop, opcodeByte_notMem_oneByte_iff, opcodeByte_mem_threeByte_iff,
    opcodeByte_mem_twoRegister_iff, hpush, hcall, hpop, hret]
  rw [if_neg (by omega), if_neg (not_not_intro (opcodeByte_mem_listed k))]
  split
  next h => exact step_of_overruns hs (by omega)
  next hbyte1 =>
  split
  next h => exact step_of_overruns hs (by omega)
  next hbyte2 =>
  have hfit : s.pc.toNat + opcodeLength k ≤ 256 := by omega
  split
  next h => exact step_of_badOperand1 hs h.1 hfit h.2
  next hreg1 =>
  split
  next h =>
    have hlen3 : opcodeLength k = 3 := congrArg formatLength h.1
    exact stepReports_of_raises hs hfit (.operand (firstBadOperand_buildInstr_second h.1 (by omega) h.2))
  next hreg2 =>
  have hreg : 2 ≤ opcodeLength k → (o1 s).toNat < 8 := by omega
  split
  next h =>
    obtain ⟨rfl | rfl, hsp⟩ := h
    · exact stepReports_of_raises hs hfit (.pushRange (hreg (by decide)) hsp)
    · exact stepReports_of_raises hs hfit (.callRange (hreg (by decide)) hsp)
  next hroom =>
  split
  next h =>
    obtain ⟨rfl | rfl, hsp⟩ := h
    · exact stepReports_of_raises hs hfit (.popRange (hreg (by decide)) hsp)
    · exact stepReports_of_raises hs hfit (.retRange hsp)
  next htop =>
  split
  next h =>
    obtain ⟨rfl, hend⟩ := h
    have hraise := stepReports_of_raises hs hfit
      (.callReturn (hreg (by decide)) (fun hsp => hroom ⟨.inr rfl, hsp⟩) hend.ge)
    rwa [hend] at hraise
  next hreturn =>
  refine stepReports_none_of_fits hs hfit fun r hr => ?_
  rcases raises_buildInstr_cases hr with h | h | h | h | ⟨rfl, h⟩
  · exact hreg1 h
  · exact hreg2 h
  · exact hroom h
  · exact htop h
  · have hlen2 : opcodeLength .call = 2 := rfl
    exact hreturn ⟨rfl, by omega⟩

/-- Settles O39: past the end of memory and at an unlisted opcode byte the fetch faults; the conditions after them are
those of a row of the table. -/
theorem stepReportsTheFirstFault : Obligations.StepReportsTheFirstFault := by
  intro s hrun
  change StepReports s (firstFault s)
  rcases Nat.lt_or_ge s.pc.toNat 256 with hpc | hpc
  · by_cases hlisted : byteAt s s.pc.toNat ∈ listed
    · obtain ⟨k, hk⟩ := exists_opcodeByte_of_mem_listed hlisted
      exact stepReports_firstFault_of_row ⟨hrun, Nat.le_of_lt_succ hpc, hk.symm⟩
    · have hfirst : firstFault s = some (.unknownInstruction, ((byteAt s s.pc.toNat).toNat : Int)) := by
        simp [firstFault, hpc, hlisted]
      rw [hfirst]
      exact stepReports_of_stepRaises hrun (.inl (fetch_of_unlisted hpc hlisted))
  · have hfirst : firstFault s = some (.outOfBounds, (s.pc.toNat : Int)) := by
      simp [firstFault, hpc]
    have hfetch : fetch s = .error (raiseOutOfBounds s.pc.toNat) := by
      have h0 := fetchByte_outside (s := s) (k := 0) hpc
      simp [fetch, decodeFrom, h0]
    rw [hfirst]
    exact stepReports_of_stepRaises hrun (.inl hfetch)

/-! ### The lines of a text with an unreadable line -/

/-- Where two texts meet, the last line of the first and the first line of the second are one. -/
theorem splitLines_append (l : Config.TextLeniency) (a b : List Char) :
    ∃ xs u v ys, splitLines l a = xs ++ [u] ∧ splitLines l b = v :: ys ∧
      splitLines l (a ++ b) = xs ++ (u ++ v) :: ys := by
  obtain ⟨v, ys, hb⟩ := List.exists_cons_of_ne_nil (Laws.splitLines_ne_nil l b)
  suffices h : ∃ xs u, splitLines l a = xs ++ [u] ∧ splitLines l (a ++ b) = xs ++ (u ++ v) :: ys by
    obtain ⟨xs, u, ha, hab⟩ := h
    exact ⟨xs, u, v, ys, ha, hb, hab⟩
  induction a with
  | nil => exact ⟨[], [], rfl, hb⟩
  | cons c cs ih =>
    obtain ⟨xs, u, ha, hab⟩ := ih
    by_cases hc : isLineEnd l c = true
    · exact ⟨[] :: xs, u, by simp [splitLines, hc, ha], by simp [splitLines, hc, hab]⟩
    · cases xs with
      | nil => exact ⟨[], c :: u, by simp [splitLines, hc, ha], by simp [splitLines, hc, hab]⟩
      | cons x xs => exact ⟨(c :: x) :: xs, u, by simp [splitLines, hc, ha], by simp [splitLines, hc, hab]⟩

theorem mem_of_mem_splitLines {l : Config.TextLeniency} {t x : List Char} {c : Char} (hx : x ∈ splitLines l t)
    (hc : c ∈ x) : c ∈ t := by
  induction t generalizing x with
  | nil =>
    cases List.mem_singleton.1 hx
    cases hc
  | cons d t ih =>
    obtain ⟨y, ys, hsplit⟩ := List.exists_cons_of_ne_nil (Laws.splitLines_ne_nil l t)
    simp only [splitLines, hsplit] at hx ih
    split at hx
    · rcases List.mem_cons.1 hx with rfl | hx
      · cases hc
      · exact .tail _ (ih hx hc)
    · rcases List.mem_cons.1 hx with rfl | hx
      · rcases List.mem_cons.1 hc with rfl | hc
        · exact .head _
        · exact .tail _ (ih (.head _) hc)
      · exact .tail _ (ih (.tail _ hx) hc)

/-- Characters in a row of which none ends a line stand in one line. -/
theorem exists_line_of_segment {l : Config.TextLeniency} {seg : List Char} (h : ∀ c ∈ seg, isLineEnd l c = false)
    (a b : List Char) : ∃ x ∈ splitLines l (a ++ (seg ++ b)), seg <:+: x := by
  obtain ⟨xs, u, v, ys, -, hsegb, hall⟩ := splitLines_append l a (seg ++ b)
  obtain ⟨xs', u', v', ys', hseg, -, hsegb'⟩ := splitLines_append l seg b
  rw [Laws.splitLines_eq_singleton l seg h] at hseg
  obtain ⟨rfl, hu'⟩ : xs' = [] ∧ u' = seg := by simpa [List.singleton_eq_append_iff] using hseg
  subst u'
  obtain ⟨rfl, -⟩ := List.cons.inj (hsegb.symm.trans hsegb')
  refine ⟨u ++ (seg ++ v'), ?_, u, v', List.append_assoc _ _ _⟩
  rw [hall]
  exact List.mem_append_right _ (.head _)

theorem stripComment_append {x : List Char} (h : '#' ∉ x) (y : List Char) :
    stripComment (x ++ y) = x ++ stripComment y :=
  List.takeWhile_append_of_pos fun _ hc => bne_iff_ne.2 (ne_of_mem_of_not_mem hc h)

theorem stripComment_of_notMem {x : List Char} (h : '#' ∉ x) : stripComment x = x :=
  List.takeWhile_eq_self_iff.2 fun _ hc => bne_iff_ne.2 (ne_of_mem_of_not_mem hc h)

/-- At the end of a token nothing is left of the line but a comment. -/
theorem stripComment_of_endsToken {l : Config.TextLeniency} {post v : List Char} {ys : List (List Char)}
    (h : endsToken post) (hv : splitLines l post = v :: ys) : stripComment v = [] := by
  cases post with
  | nil =>
    cases hv
    rfl
  | cons c cs =>
    obtain ⟨y, hcs, hsplit⟩ := List.exists_cons_of_ne_nil (Laws.splitLines_ne_nil l cs)
    rcases h with h | h | h
    · cases h
    · cases h
      cases hv
      rfl
    · cases h
      have hhash : isLineEnd l '#' = false := Laws.isLineEnd_of_not_white (by decide)
      simp only [splitLines, hhash, hsplit] at hv
      cases hv
      rfl

/-- Every line of a part of a text that begins a line and ends a token stands in the whole text, with no more than a
comment behind it. -/
theorem exists_line_of_part {l : Config.TextLeniency} {pre line post x : List Char} (hpre : startsLine pre)
    (hline : '#' ∉ line) (hpost : endsToken post) (hx : x ∈ splitLines l line) :
    ∃ y ∈ splitLines l (pre ++ line ++ post), stripComment y = x := by
  have hxhash : '#' ∉ x := fun hc => hline (mem_of_mem_splitLines hx hc)
  suffices h : ∃ y ∈ splitLines l (line ++ post), stripComment y = x by
    obtain ⟨y, hy, hstrip⟩ := h
    rcases hpre with h | h
    · rw [List.getLast?_eq_none_iff.1 h]
      exact ⟨y, hy, hstrip⟩
    · obtain ⟨p, rfl⟩ := List.getLast?_eq_some_iff.1 h
      refine ⟨y, ?_, hstrip⟩
      rw [List.append_assoc, List.append_assoc, List.singleton_append, Laws.splitLines_append_lf]
      exact List.mem_append_right _ hy
  obtain ⟨xs, u, v, ys, hsplit, hv, hall⟩ := splitLines_append l line post
  rw [hall]
  rw [hsplit] at hx
  rcases List.mem_append.1 hx with hx | hx
  · exact ⟨x, List.mem_append_left _ hx, stripComment_of_notMem hxhash⟩
  · obtain rfl := List.mem_singleton.1 hx
    refine ⟨x ++ v, List.mem_append_right _ (.head _), ?_⟩
    rw [stripComment_append hxhash, stripComment_of_endsToken hpost hv, List.append_nil]

/-! ### What no leniency reads -/

/-- White space, then binary digits with a value in 0..255, or eight of them, then white space. It is all that a line
that is read holds beside its comment. -/
def Readable (x : List Char) : Prop :=
  ∃ u t w, x = u ++ t ++ w ∧ (∀ c ∈ u, isWhite c = true) ∧ (∀ c ∈ w, isWhite c = true) ∧
    (∀ c ∈ t, isBinaryDigit c = true) ∧ (t.length = 8 ∨ binaryValue t < 256)

theorem readable_of_parseLine {l : Config.TextLeniency} {y : List Char} {b : Option Byte} (h : parseLine l y = .ok b) :
    Readable (stripComment y) := by
  rcases Laws.parseLine_ok h with ⟨-, hblank⟩ | ⟨u, t, w, v, -, hsplit, hu, hw, ht, hv⟩
  · exact ⟨stripComment y, [], [], by simp, hblank, by simp, by simp, .inr (by decide)⟩
  · refine ⟨u, t, w, hsplit, hu, hw, ht, ?_⟩
    rcases Laws.parseToken_cases l t with hbad | ⟨-, hvalue, -⟩
    · cases hbad.symm.trans hv
    · exact hvalue.imp_right And.left

theorem Readable.isWhite_or_isBinaryDigit {x : List Char} (h : Readable x) {c : Char} (hc : c ∈ x) :
    isWhite c = true ∨ isBinaryDigit c = true := by
  obtain ⟨u, t, w, rfl, hu, hw, ht, -⟩ := h
  rcases List.mem_append.1 hc with hc | hc
  · exact (List.mem_append.1 hc).imp (hu c) (ht c)
  · exact .inl (hw c hc)

/-- A sublist that begins with a character not in `u` lies behind `u`. -/
theorem sublist_of_append_left {p : Char → Prop} {u x s : List Char} {d : Char} (hu : ∀ c ∈ u, p c) (hd : ¬ p d)
    (h : (d :: s).Sublist (u ++ x)) : (d :: s).Sublist x := by
  induction u with
  | nil => exact h
  | cons c u ih =>
    obtain ⟨hc, hu⟩ := List.forall_mem_cons.1 hu
    cases h with
    | cons _ h => exact ih hu h
    | cons_cons _ h => exact absurd hc hd

/-- What stands between two characters that are not white space stands inside the token. -/
theorem Readable.isBinaryDigit_of_between {x : List Char} (h : Readable x) {d b e : Char} (hd : isWhite d = false)
    (he : isWhite e = false) (hx : [d, b, e].Sublist x) : isBinaryDigit b = true := by
  obtain ⟨u, t, w, rfl, hu, hw, ht, -⟩ := h
  have htail : [d, b, e].Sublist (t ++ w) :=
    sublist_of_append_left hu (by simp [hd]) (by rwa [List.append_assoc] at hx)
  have htoken : [e, b, d].Sublist t.reverse :=
    sublist_of_append_left (u := w.reverse) (fun c hc => hw c (List.mem_reverse.1 hc)) (by simp [he])
      (by simpa using htail.reverse)
  exact ht b (List.mem_reverse.1 (htoken.subset (by simp)))

/-- A further digit doubles the value and adds its own. -/
theorem binaryValue_concat (t : List Char) (c : Char) :
    binaryValue (t ++ [c]) = 2 * binaryValue t + (if c = '1' then 1 else 0) := by
  simp [binaryValue]

theorem two_pow_le_binaryValue (ds : List Char) : 2 ^ ds.length ≤ binaryValue ('1' :: ds) := by
  induction ds using List.reverseRecOn with
  | nil => decide
  | append_singleton ds c ih =>
    rw [← List.cons_append, binaryValue_concat, List.length_append, List.length_singleton, Nat.pow_succ]
    omega

/-- A token is all of a line that has no white space. -/
theorem Readable.value_of_not_white {x : List Char} (h : Readable x) (hx : ∀ c ∈ x, isWhite c = false) :
    x.length = 8 ∨ binaryValue x < 256 := by
  obtain ⟨u, t, w, rfl, hu, hw, -, hvalue⟩ := h
  have hunil : u = [] := List.eq_nil_iff_forall_not_mem.2 fun c hc =>
    Bool.eq_false_iff.1 (hx c (by simp [hc])) (hu c hc)
  have hwnil : w = [] := List.eq_nil_iff_forall_not_mem.2 fun c hc =>
    Bool.eq_false_iff.1 (hx c (by simp [hc])) (hw c hc)
  simpa [hunil, hwnil] using hvalue

theorem isBinaryDigit_iff (c : Char) : isBinaryDigit c = true ↔ c = '0' ∨ c = '1' := by
  simp [isBinaryDigit]

theorem isWhite_of_digit {c : Char} (h : c = '0' ∨ c = '1') : isWhite c = false :=
  Laws.isWhite_of_isBinaryDigit ((isBinaryDigit_iff c).2 h)

/-- A character that is neither white space nor a binary digit stands in some line, which is not readable. -/
theorem exists_not_readable_of_foreign (l : Config.TextLeniency) {line : List Char} {c : Char} (hc : c ∈ line)
    (hwhite : isWhite c = false) (h0 : c ≠ '0') (h1 : c ≠ '1') : ∃ x ∈ splitLines l line, ¬ Readable x := by
  obtain ⟨a, b, rfl⟩ := List.append_of_mem hc
  obtain ⟨x, hx, hseg⟩ := exists_line_of_segment (l := l) (seg := [c])
    (List.forall_mem_singleton.2 (Laws.isLineEnd_of_not_white hwhite)) a b
  refine ⟨x, hx, fun hread => ?_⟩
  have hkind := hread.isWhite_or_isBinaryDigit (hseg.subset (.head _))
  simp [hwhite, isBinaryDigit_iff, h0, h1] at hkind

/-- Two digits with blanks between them stand in one line whatever the leniency, and that line is not readable. -/
theorem exists_not_readable_of_inner_blank (l : Config.TextLeniency) (a b : List Char) {d c e : Char} {w : List Char}
    (hd : isWhite d = false) (he : isWhite e = false) (hblank : ∀ k ∈ c :: w, k = ' ' ∨ k = '\t') :
    ∃ x ∈ splitLines l (a ++ d :: (c :: w ++ e :: b)), ¬ Readable x := by
  have hrow : ∀ k ∈ d :: (c :: w ++ [e]), isLineEnd l k = false := by
    intro k hk
    rcases List.mem_cons.1 hk with rfl | hk
    · exact Laws.isLineEnd_of_not_white hd
    · rcases List.mem_append.1 hk with hk | hk
      · exact isLineEnd_blank l (hblank k hk)
      · exact List.mem_singleton.1 hk ▸ Laws.isLineEnd_of_not_white he
  obtain ⟨x, hx, hseg⟩ := exists_line_of_segment hrow a b
  have hsub : [d, c, e].Sublist (d :: (c :: w ++ [e])) := by simp
  refine ⟨x, by simpa using hx, fun hread => ?_⟩
  have hdigit := hread.isBinaryDigit_of_between hd he (hsub.trans hseg.sublist)
  rcases hblank c (.head _) with rfl | rfl <;> cases hdigit

/-- More than eight digits of which the first is 1 are one line, whose value is above 255. -/
theorem exists_not_readable_of_large (l : Config.TextLeniency) {ds : List Char} (hlen : 8 ≤ ds.length)
    (hds : ∀ c ∈ ds, c = '0' ∨ c = '1') : ∃ x ∈ splitLines l ('1' :: ds), ¬ Readable x := by
  have hwhite : ∀ c ∈ '1' :: ds, isWhite c = false :=
    List.forall_mem_cons.2 ⟨isWhite_of_digit (.inr rfl), fun c hc => isWhite_of_digit (hds c hc)⟩
  have hsplit := Laws.splitLines_eq_singleton l ('1' :: ds) fun c hc => Laws.isLineEnd_of_not_white (hwhite c hc)
  refine ⟨'1' :: ds, hsplit ▸ .head _, fun hread => ?_⟩
  have hlarge : 2 ^ 8 ≤ binaryValue ('1' :: ds) :=
    (Nat.pow_le_pow_right (by decide) hlen).trans (two_pow_le_binaryValue ds)
  rcases hread.value_of_not_white hwhite with h8 | hvalue
  · have hlen8 : ds.length + 1 = 8 := h8
    omega
  · omega

/-- An unreadable line, which the leniency may cut into several, holds one that is not readable. -/
theorem exists_not_readable (l : Config.TextLeniency) {line : List Char} (h : unreadable line) :
    ∃ x ∈ splitLines l line, ¬ Readable x := by
  obtain ⟨-, ⟨c, hc, hwhite, h0, h1⟩ | ⟨a, d, w, e, b, rfl, hd, he, hw, hblank⟩ | ⟨ds, rfl, hlen, hds⟩⟩ := h
  · exact exists_not_readable_of_foreign l hc hwhite h0 h1
  · obtain ⟨c, w, rfl⟩ := List.exists_cons_of_ne_nil hw
    exact exists_not_readable_of_inner_blank l a b (isWhite_of_digit (by simpa using hd))
      (isWhite_of_digit (by simpa using he)) hblank
  · exact exists_not_readable_of_large l hlen hds

/-! ### The launch -/

theorem launchExitCode_ne_zero (c : Config.ExitCodes) (e : LaunchError) : launchExitCode c e ≠ 0 := by
  cases e <;> exact c.nonzero _ (by simp [launchExitCode])

/-- A text is malformed with each line that holds, beside its comment, no readable token. -/
theorem parseProgramText_malformed {l : Config.TextLeniency} {text y : List Char} (hy : y ∈ splitLines l text)
    (hread : ¬ Readable (stripComment y)) : parseProgramText l text = .error .malformedToken := by
  refine Laws.parseLines_error hy ?_
  cases h : parseLine l y with
  | error e => rw [Laws.parseLine_error h]
  | ok b => exact absurd (readable_of_parseLine h) hread

theorem invoke_of_parse_error {l : Config.TextLeniency} {text : List Char} {e : LaunchError}
    (h : parseProgramText l text = .error e) : invoke l [some text] = .error e := by
  simp [invoke, h]

theorem invoke_of_many (l : Config.TextLeniency) (x y : Option (List Char)) (xs : List (Option (List Char))) :
    invoke l (x :: y :: xs) = .error .usage := by
  cases x <;> rfl

/-- Settles O60: the unreadable line holds a line of the text, up to a comment, that no leniency reads. -/
theorem malformedTextsAreLoadErrors : Obligations.MalformedTextsAreLoadErrors := by
  intro l c
  refine ⟨fun pre line post hpre hline hpost => ?_, rfl, invoke_of_many l, rfl, launchExitCode_ne_zero c⟩
  obtain ⟨x, hx, hread⟩ := exists_not_readable l hline
  obtain ⟨y, hy, rfl⟩ := exists_line_of_part hpre hline.1 hpost hx
  exact invoke_of_parse_error (parseProgramText_malformed hy hread)

end Sys2Proof.Proofs
end

section
/-! PROOFS. 70_reset_and_hazards.md: what holds of every state of every run from the boot of an image. -/

namespace Sys2Proof.Proofs

open Sys2Proof Sys2Proof.Machine Sys2Proof.Statements

/-! ### The runs of an image -/

/-- What every step keeps, a run of any number of steps keeps. -/
theorem run_keeps {P : State → Prop} (hkeep : ∀ s t, P s → step s = .next t → P t) {n : Nat} {s t : State}
    (hs : P s) (hrun : Sys2Proof.core.run n s = .next t) : P t := by
  induction n generalizing s with
  | zero =>
    cases hrun
    exact hs
  | succ n ih =>
    obtain ⟨u, hu⟩ := everyStepAnswersANextState s
    rw [run_succ_of_next hu] at hrun
    exact ih (hkeep s u hs hu) hrun

/-- No run gets stuck: it answers a state after any number of steps. -/
theorem exists_run_next (n : Nat) (s : State) : ∃ t, Sys2Proof.core.run n s = .next t := by
  induction n generalizing s with
  | zero => exact ⟨s, rfl⟩
  | succ n ih =>
    obtain ⟨u, hu⟩ := everyStepAnswersANextState s
    rw [run_succ_of_next hu]
    exact ih u

/-- A boot that succeeds leaves the reset state but for its memory, which stays canonical. -/
theorem inv_boot {image : List Byte} {s : State} (hboot : boot image = .ok s) : s.Inv := by
  obtain ⟨hmem, hpc, hflags, hfault⟩ := resetMeetsTheInvariant
  rcases Nat.lt_or_ge 256 image.length with hlong | hfits
  · cases (boot_of_tooLong hlong).symm.trans hboot
  · cases (boot_of_fits hfits).symm.trans hboot
    exact ⟨wf_placeBytes image 0 hmem, hpc, hflags, hfault⟩

/-- Settles O57: the boot establishes the invariant and every step keeps it; an image that fits boots, and no run gets
stuck. -/
theorem everyReachableStateMeetsTheInvariant : Obligations.EveryReachableStateMeetsTheInvariant := by
  refine ⟨?invariant, ?neverStuck⟩
  case invariant =>
    rintro image t ⟨s, n, hboot, hrun⟩
    exact run_keeps stepKeepsTheInvariant (inv_boot hboot) hrun
  case neverStuck =>
    intro image n hfits
    exact ⟨_, (exists_run_next n _).imp fun _ hrun => ⟨boot_of_fits hfits, hrun⟩⟩

end Sys2Proof.Proofs
end
